-- ==== Sys2Proof/Word.lean ====
section
/-! DEFINITION. The word types of the engine (00_scope.md R7, R8, R9, R10). -/

namespace Sys2Proof

/-- One 8-bit byte: a register, a buffer byte, a character or a raw base-58 digit. -/
abbrev Byte := BitVec 8

/-- A 32-bit limb of the binary value, or a 32-bit table entry (00_scope.md R7). -/
abbrev Limb := BitVec 32

/-- A 64-bit accumulator; its arithmetic is modulo 2^64 (00_scope.md R10). -/
abbrev Acc := BitVec 64

/-- A block address, 10 bits (20_memory.md R50, R51). -/
abbrev Addr := BitVec 10

end Sys2Proof
end

