-- ==== Sys2Proof/Syntax.lean ====
section
/-! DEFINITION. The commands of the engine: one constructor per row of spec/opcode_table.json (30_encoding.md R83). -/

namespace Sys2Proof

/-- The four commands. A command has no operand fields: its operands are the buffers (30_encoding.md R82). -/
inductive Instr where
  /-- `ENC32`, command byte 0x01 (42_encode.md R171). -/
  | enc32
  /-- `ENC64`, command byte 0x05 (42_encode.md R172). -/
  | enc64
  /-- `DEC32`, command byte 0x02 (43_decode.md R197). -/
  | dec32
  /-- `DEC64`, command byte 0x06 (43_decode.md R198). -/
  | dec64
deriving DecidableEq, Repr

end Sys2Proof
end

