-- ==== Sys2Proof/Machine/HostSyntax.lean ====
section
/-! DEFINITION. The host's side of the interface as syntax: single accesses (60_exceptions.md R244) and the host-program
notation with its pseudo-instructions (30_encoding.md R89, R90). -/

namespace Sys2Proof.Machine

/-- One host access (60_exceptions.md R244). An access of a width other than 8 is written down too, so that R233 can refuse it. -/
inductive Access where
  /-- a read of `width` bits at `a` -/
  | read (a : Addr) (width : Nat)
  /-- a write of `width` bits at `a` -/
  | write (a : Addr) (width : Nat) (data : BitVec width)
deriving DecidableEq, Repr

/-- One bus transaction of a program's encoding (30_encoding.md R89): `W a=v` or `R a`, the read with the byte it returned. -/
inductive Transaction where
  | wrote (a : Addr) (v : Byte)
  | gave (a : Addr) (v : Byte)
deriving DecidableEq, Repr

/-- Host variables, under the names 30_encoding.md R90 uses; `ri k` is the `k`-th of GETB's `r_i`, `other` any further name. -/
inductive HostVar where
  | r
  | n
  | i
  | ri (k : Nat)
  | other (k : Nat)
deriving DecidableEq, Repr

/-- Host expressions. DESIGN CHOICE (log 7): the spec gives no grammar; these are the forms its own statements use. -/
inductive HostExpr where
  | lit (z : Int)
  | var (x : HostVar)
  | add (e f : HostExpr)
deriving DecidableEq, Repr

/-- The statements of 30_encoding.md R89, with `getb`, whose number of reads is only known when it runs (R90, GETS). -/
inductive HostStmt where
  /-- `SB a, v` -/
  | sb (a v : HostExpr)
  /-- `LB r, a` -/
  | lb (x : HostVar) (a : HostExpr)
  /-- `ENC32`, `ENC64`, `DEC32`, `DEC64` -/
  | issue (c : Instr)
  /-- `CMD v` -/
  | cmd (v : HostExpr)
  /-- `label:` -/
  | label (l : Nat)
  /-- `BRSET r, k, label`. DESIGN CHOICE (log 17): `k` is a constant natural number. -/
  | brset (x : HostVar) (k : Nat) (l : Nat)
  /-- `BRNE r, v, label` -/
  | brne (x : HostVar) (v : HostExpr) (l : Nat)
  /-- `MOV r, e` -/
  | mov (x : HostVar) (e : HostExpr)
  /-- `GETB off, n` -/
  | getb (off cnt : HostExpr)
deriving DecidableEq, Repr

/-- A line of a host program: a statement or a pseudo-instruction (30_encoding.md R90). DESIGN CHOICE (log 17): the offset of PUTB and
PUTS is a constant natural number. -/
inductive HostLine where
  | stmt (st : HostStmt)
  /-- `PUTB off, h` -/
  | putb (off : Nat) (h : List Byte)
  /-- `PUTS off, "t"`, the text as its character codes -/
  | puts (off : Nat) (t : List Byte)
  /-- `WAIT` -/
  | wait
  /-- `GETS` -/
  | gets
  /-- `COPYTXT` -/
  | copytxt
deriving DecidableEq, Repr

/-- The label a statement places, if it places one. -/
def HostStmt.placed : HostStmt → Option Nat
  | .label l => some l
  | _ => none

/-- The label a statement branches to, if it branches. -/
def HostStmt.target : HostStmt → Option Nat
  | .brset _ _ l => some l
  | .brne _ _ l => some l
  | _ => none

/-- No label is placed twice. -/
def labelsUnique (p : List HostStmt) : Bool := decide (p.filterMap HostStmt.placed).Nodup

/-- Every branch goes to a label that the program places. -/
def targetsPlaced (p : List HostStmt) : Bool :=
  (p.filterMap HostStmt.target).all fun l => (p.filterMap HostStmt.placed).contains l

/-- A well-formed host program. -/
def programWf (p : List HostStmt) : Bool := labelsUnique p && targetsPlaced p

end Sys2Proof.Machine
end

