-- ==== Sys2Proof/Config.lean ====
section
/-! DEFINITION. What the spec leaves open: the draws, the parameter LATENCY, and the host's unset variables. Each is an
uninterpreted constant, so that no proof can rest on a value of it. -/

namespace Sys2Proof

/-- The `k`-th draw: "any value, under no law", a fresh one for each read (00_scope.md R11, 93_implementation_defined.md). Log 1. -/
opaque Config.draw : Nat → Byte

/-- LATENCY: how many host steps pass between the issue of a command and its completion (70_reset_and_hazards.md R262). It may
differ from command to command and from issue to issue, and never depends on the data. Log 5. -/
opaque Config.latency : Instr → Nat → Nat

/-- The value of a host variable that no statement has set: 30_encoding.md R89 gives none. Log 7. -/
opaque Config.hostVarInit : Machine.HostVar → Int

end Sys2Proof
end

