-- ==== Sys2Proof/Machine/State.lean ====
section
/-! DEFINITION. The state of the machine, its faults and refusals, and the state after reset (10_state.md,
60_exceptions.md R230, 70_reset_and_hazards.md R250). -/

namespace Sys2Proof.Machine

/-- The engine is idle or runs a command (10_state.md R21). -/
inductive Phase where
  | idle
  | busy
deriving DecidableEq, Repr

/-- A register that the spec lets be `unspecified`: a read of it is then a draw (00_scope.md R11, 10_state.md R30). -/
inductive RegValue where
  | defined (v : Byte)
  | unspecified
deriving DecidableEq, Repr

/-- What comes to the machine from outside (60_exceptions.md R244). -/
inductive Input where
  /-- the event Reset -/
  | reset
  /-- one host access -/
  | access (x : Access)
  /-- the host runs the next statement of its program -/
  | program
deriving DecidableEq, Repr

/-- The causes of a host protocol fault (60_exceptions.md R230). -/
inductive ProtocolCause where
  /-- F1, records the byte written (60_exceptions.md R222) -/
  | cmdWhileBusy (v : Byte)
  /-- F2, records the index and the byte (60_exceptions.md R232) -/
  | inBufWhileBusy (i : Nat) (v : Byte)
deriving DecidableEq, Repr

/-- The named conditions in which the run ends (60_exceptions.md R230). All are the spec's own. -/
inductive Fault where
  /-- F1 and F2: raised by a host write to CMD or IN_BUF while BUSY. Safe: the spec ends the run here too. -/
  | hostProtocolFault (c : ProtocolCause)
  /-- F3: raised by a completion step that reads `IN_BUF[i]` before the host wrote it. Safe: the spec ends the run here too. -/
  | uninitialisedInput (i : Nat)
deriving DecidableEq, Repr

/-- What the model does not perform. -/
inductive Refusal where
  /-- raised by exec's arm of an instruction without a meaning; no arm uses it. Safe. -/
  | notModelled (mnemonic : String)
  /-- F4: raised by a host access of a width other than 8 bits (60_exceptions.md R233). Safe: the spec refuses it too. -/
  | wideAccess (address width : Nat)
  /-- raised by a host statement whose address or byte does not fit 10 or 8 bits: 30_encoding.md R89 gives it no bus
  transaction (log 7). Safe. -/
  | hostOperand (z : Int)
  /-- raised by a branch to a label that the host program does not place: 30_encoding.md R89 gives it no target (log 7). Safe. -/
  | hostLabel (l : Nat)
deriving DecidableEq, Repr

/-- The whole state. The first six fields are the spec's (10_state.md); the others are the model's own (INVENTORY.md). -/
structure State where
  /-- 10_state.md R21 -/
  phase : Phase
  /-- the latched command, meaningful while BUSY (10_state.md R21) -/
  op : Instr
  /-- 10_state.md R24 -/
  cmd : Byte
  /-- 10_state.md R25 -/
  status : Byte
  /-- 10_state.md R30 -/
  outLen : RegValue
  /-- IN_BUF and OUT_BUF by block address, strictly rising; an address not listed is unwritten (IN_BUF) or unspecified
  (OUT_BUF) (10_state.md R31, R32) -/
  mem : List Host.Cell
  /-- host steps left before the completion step (70_reset_and_hazards.md R262) -/
  countdown : Nat
  /-- legal commands issued so far -/
  issues : Nat
  /-- draws made so far -/
  draws : Nat
  /-- events from outside, oldest first -/
  inputs : List Input
  /-- bus transactions made, newest first (30_encoding.md R89) -/
  trace : List Transaction
  /-- the host's program (30_encoding.md R89) -/
  prog : List HostStmt
  /-- index of the next statement of `prog` -/
  hostPc : Nat
  /-- the reads that a GETB still has to make (30_encoding.md R90) -/
  burst : List HostStmt
  /-- the host's variables, in the order in which they were first set (30_encoding.md R89) -/
  hostVars : List (HostVar × Int)
deriving DecidableEq, Repr

/-- The machine right after reset (70_reset_and_hazards.md R250), with an idle host that has no program. The value of `op` is a
DESIGN CHOICE (log 2): it is not observable while IDLE. -/
def State.reset : State where
  phase := .idle
  op := .enc32
  cmd := 0x00#8
  status := 0x00#8
  outLen := .unspecified
  mem := []
  countdown := 0
  issues := 0
  draws := 0
  inputs := []
  trace := []
  prog := []
  hostPc := 0
  burst := []
  hostVars := []

end Sys2Proof.Machine
end

