-- ==== Sys2Proof/Machine/Operands.lean ====
section
/-! DEFINITION. The operands: sizes and their parameters (00_scope.md R6 to R8), the address map (20_memory.md R52), the byte memory
of the two buffers, and the two input formats BIN_N and STR_IN_N (30_encoding.md R86, R87). -/

namespace Sys2Proof.Machine

/-- The size parameter: `N = 32` or `N = 64` (00_scope.md R6). -/
inductive Size where
  | n32
  | n64
deriving DecidableEq, Repr

/-- `N`, bytes of the binary operand (00_scope.md R6). -/
def Size.bytes : Size → Nat
  | .n32 => 32
  | .n64 => 64

/-- `L`, limbs of the binary value (00_scope.md R7). -/
def Size.limbs : Size → Nat
  | .n32 => 8
  | .n64 => 16

/-- `C`, base-58^5 intermediate digits (00_scope.md R7). -/
def Size.inters : Size → Nat
  | .n32 => 9
  | .n64 => 18

/-- `RAW`, raw base-58 digits (00_scope.md R7). -/
def Size.raw : Size → Nat
  | .n32 => 45
  | .n64 => 90

/-- `E`, bytes of the text buffer with its terminator (00_scope.md R7, 90_conflicts.md C3). -/
def Size.encoded : Size → Nat
  | .n32 => 45
  | .n64 => 89

/-- `MAXLEN`, the longest text (00_scope.md R7). -/
def Size.maxLen (sz : Size) : Nat := sz.encoded - 1

/-- `R1DIV = 58^5` (00_scope.md R7). -/
def r1div : Nat := 656356768

/-- `BUF_SZ`, bytes of each buffer (00_scope.md R8). -/
def bufSize : Nat := 89

/-- The address of `IN_BUF[0]` (20_memory.md R52). -/
def inBase : Nat := 0x100

/-- The address of `OUT_BUF[0]` (20_memory.md R52). -/
def outBase : Nat := 0x200

/-- What a block address names (20_memory.md R52). -/
inductive Place where
  | cmd
  | status
  | outLen
  | inBuf (i : Nat)
  | outBuf (i : Nat)
  | reserved
deriving DecidableEq, Repr

/-- The address map (20_memory.md R52). -/
def placeOf (a : Addr) : Place :=
  let n := a.toNat
  if n = 0x000 then .cmd
  else if n = 0x001 then .status
  else if n = 0x002 then .outLen
  else if inBase ≤ n ∧ n < inBase + bufSize then .inBuf (n - inBase)
  else if outBase ≤ n ∧ n < outBase + bufSize then .outBuf (n - outBase)
  else .reserved

/-- The byte at a block address, or `none` where nothing is listed: an IN_BUF byte that the host never wrote, an OUT_BUF byte
that is unspecified (10_state.md R31, R32). -/
def Memory.read : List Host.Cell → Nat → Option Byte
  | [], _ => none
  | (b, v) :: rest, a => if a = b then some v else Memory.read rest a

/-- Write one byte, keeping the addresses strictly rising. -/
def Memory.write : List Host.Cell → Nat → Byte → List Host.Cell
  | [], a, v => [(a, v)]
  | (b, w) :: rest, a, v =>
    if a < b then (a, v) :: (b, w) :: rest
    else if a = b then (a, v) :: rest
    else (b, w) :: Memory.write rest a v

/-- Make one byte unlisted (00_scope.md R11, `unspecified(X)`). -/
def Memory.erase (m : List Host.Cell) (a : Nat) : List Host.Cell := m.filter fun c => c.1 ≠ a

/-- Write bytes at rising addresses from `a`. -/
def Memory.writeBytes : List Host.Cell → Nat → List Byte → List Host.Cell
  | m, _, [] => m
  | m, a, v :: vs => Memory.writeBytes (Memory.write m a v) (a + 1) vs

/-- Make the `n` bytes from `a` unlisted. -/
def Memory.eraseRange : List Host.Cell → Nat → Nat → List Host.Cell
  | m, _, 0 => m
  | m, a, n + 1 => Memory.eraseRange (Memory.erase m a) (a + 1) n

/-- The address belongs to IN_BUF or OUT_BUF (20_memory.md R52). -/
abbrev inBuffers (a : Nat) : Prop :=
  (inBase ≤ a ∧ a < inBase + bufSize) ∨ (outBase ≤ a ∧ a < outBase + bufSize)

/-- The canonical form of the buffers' memory: addresses strictly rising, each in IN_BUF or OUT_BUF. An unlisted address has no
value, so no entry can equal it. -/
abbrev Memory.wf (m : List Host.Cell) : Prop :=
  (m.map Prod.fst).Pairwise (· < ·) ∧ ∀ c ∈ m, inBuffers c.1

/-- What `IN_BUF[i]` holds; `none` if the host never wrote it since reset (10_state.md R31). -/
def inBufAt (s : State) (i : Nat) : Option Byte := Memory.read s.mem (inBase + i)

/-- What `OUT_BUF[i]` holds; `none` if it is unspecified (10_state.md R32). -/
def outBufAt (s : State) (i : Nat) : Option Byte := Memory.read s.mem (outBase + i)

/-- `in_written[i]` (10_state.md R31): the host wrote `IN_BUF[i]` since reset. -/
def inWritten (s : State) (i : Nat) : Bool := (inBufAt s i).isSome

/-- Read `IN_BUF[i]`, as the engine does: an unwritten byte is the fault F3 (60_exceptions.md R231). -/
def readInput (m : List Host.Cell) (i : Nat) : Except Fault Byte :=
  match Memory.read m (inBase + i) with
  | some v => .ok v
  | none => .error (.uninitialisedInput i)

/-- The format BIN_N: read `n` bytes of IN_BUF from index `i`, in rising order, stopping at the first unwritten one
(30_encoding.md R86, 42_encode.md R170 step 1). -/
def readBinary (m : List Host.Cell) : Nat → Nat → Except Fault (List Byte)
  | _, 0 => .ok []
  | i, n + 1 =>
    match readInput m i with
    | .error f => .error f
    | .ok v =>
      match readBinary m (i + 1) n with
      | .error f => .error f
      | .ok vs => .ok (v :: vs)

end Sys2Proof.Machine
end

