-- ==== Sys2Proof/Machine/Tables.lean ====
section
/-! DEFINITION. The six constant tables (10_state.md R33): ALPHABET and INVERSE (40_components.md R100 to R102) and the four radix
tables (41_radix_tables.md R151, R152, R154, R155). No command writes them (41_radix_tables.md R158). -/

namespace Sys2Proof.Machine

/-- ALPHABET, the ASCII codes of "123456789ABCDEFGHJKLMNPQRSTUVWXYZabcdefghijkmnopqrstuvwxyz" (40_components.md R100). -/
def alphabetTable : List Byte :=
  [0x31, 0x32, 0x33, 0x34, 0x35, 0x36, 0x37, 0x38] ++
  [0x39, 0x41, 0x42, 0x43, 0x44, 0x45, 0x46, 0x47] ++
  [0x48, 0x4A, 0x4B, 0x4C, 0x4D, 0x4E, 0x50, 0x51] ++
  [0x52, 0x53, 0x54, 0x55, 0x56, 0x57, 0x58, 0x59] ++
  [0x5A, 0x61, 0x62, 0x63, 0x64, 0x65, 0x66, 0x67] ++
  [0x68, 0x69, 0x6A, 0x6B, 0x6D, 0x6E, 0x6F, 0x70] ++
  [0x71, 0x72, 0x73, 0x74, 0x75, 0x76, 0x77, 0x78] ++
  [0x79, 0x7A]

/-- `ALPHABET[d]` for `d` at most 57 (40_components.md R100). Outside that domain the engine never reads it (R118; log 8). -/
def alphabet (d : Byte) : Byte := alphabetTable.getD d.toNat 0x00#8

/-- The entry of INVERSE for a byte outside the alphabet (40_components.md R101). -/
def sentinel : Byte := 255#8

/-- `INVERSE[c]`: the digit whose ALPHABET entry is `c`, or 255 (40_components.md R101). -/
def inverse (c : Byte) : Byte :=
  match alphabetTable.idxOf? c with
  | some d => BitVec.ofNat 8 d
  | none => sentinel

/-- `VALID(c)` (40_components.md R102). -/
def validChar (c : Byte) : Bool := inverse c != sentinel

/-- `enc_table_32`, 8 rows by 8 columns (41_radix_tables.md R151). -/
def encTable32 : List (List Limb) :=
  [[513735, 77223048, 437087610, 300156666, 605448490, 214625350, 141436834, 379377856],
   [0, 78508, 646269101, 118408823, 91512303, 209184527, 413102373, 153715680],
   [0, 0, 11997, 486083817, 3737691, 294005210, 247894721, 289024608],
   [0, 0, 0, 1833, 324463681, 385795061, 551597588, 21339008]] ++
  [[0, 0, 0, 0, 280, 127692781, 389432875, 357132832],
   [0, 0, 0, 0, 0, 42, 537767569, 410450016],
   [0, 0, 0, 0, 0, 0, 6, 356826688],
   [0, 0, 0, 0, 0, 0, 0, 1]]

/-- `enc_table_64`, 16 rows by 17 columns (41_radix_tables.md R152). -/
def encTable64 : List (List Limb) :=
  [[2631, 149457141, 577092685, 632289089, 81912456, 221591423, 502967496, 403284731, 377738089, 492128779, 746799, 366351977, 190199623, 38066284, 526403762, 650603058, 454901440],
   [0, 402, 68350375, 30641941, 266024478, 208884256, 571208415, 337765723, 215140626, 129419325, 480359048, 398051646, 635841659, 214020719, 136986618, 626219915, 49699360],
   [0, 0, 61, 295059608, 141201404, 517024870, 239296485, 527697587, 212906911, 453637228, 467589845, 144614682, 45134568, 184514320, 644355351, 104784612, 308625792],
   [0, 0, 0, 9, 256449755, 500124311, 479690581, 372802935, 413254725, 487877412, 520263169, 176791855, 78190744, 291820402, 74998585, 496097732, 59100544]] ++
  [[0, 0, 0, 0, 1, 285573662, 455976778, 379818553, 100001224, 448949512, 109507367, 117185012, 347328982, 522665809, 36908802, 577276849, 64504928],
   [0, 0, 0, 0, 0, 0, 143945778, 651677945, 281429047, 535878743, 264290972, 526964023, 199595821, 597442702, 499113091, 424550935, 458949280],
   [0, 0, 0, 0, 0, 0, 0, 21997789, 294590275, 148640294, 595017589, 210481832, 404203788, 574729546, 160126051, 430102516, 44963712],
   [0, 0, 0, 0, 0, 0, 0, 0, 3361701, 325788598, 30977630, 513969330, 194569730, 164019635, 136596846, 626087230, 503769920]] ++
  [[0, 0, 0, 0, 0, 0, 0, 0, 0, 513735, 77223048, 437087610, 300156666, 605448490, 214625350, 141436834, 379377856],
   [0, 0, 0, 0, 0, 0, 0, 0, 0, 0, 78508, 646269101, 118408823, 91512303, 209184527, 413102373, 153715680],
   [0, 0, 0, 0, 0, 0, 0, 0, 0, 0, 0, 11997, 486083817, 3737691, 294005210, 247894721, 289024608],
   [0, 0, 0, 0, 0, 0, 0, 0, 0, 0, 0, 0, 1833, 324463681, 385795061, 551597588, 21339008]] ++
  [[0, 0, 0, 0, 0, 0, 0, 0, 0, 0, 0, 0, 0, 280, 127692781, 389432875, 357132832],
   [0, 0, 0, 0, 0, 0, 0, 0, 0, 0, 0, 0, 0, 0, 42, 537767569, 410450016],
   [0, 0, 0, 0, 0, 0, 0, 0, 0, 0, 0, 0, 0, 0, 0, 6, 356826688],
   [0, 0, 0, 0, 0, 0, 0, 0, 0, 0, 0, 0, 0, 0, 0, 0, 1]]

/-- `dec_table_32`, 9 rows by 8 columns (41_radix_tables.md R154). -/
def decTable32 : List (List Limb) :=
  [[1277, 2650397687, 3801011509, 2074386530, 3248244966, 687255411, 2959155456, 0],
   [0, 8360, 1184754854, 3047609191, 3418394749, 132556120, 1199103528, 0],
   [0, 0, 54706, 2996985344, 1834629191, 3964963911, 485140318, 1073741824],
   [0, 0, 0, 357981, 1476998812, 3337178590, 1483338760, 4194304000]] ++
  [[0, 0, 0, 0, 2342503, 3052466824, 2595180627, 17825792],
   [0, 0, 0, 0, 0, 15328518, 1933902296, 4063920128],
   [0, 0, 0, 0, 0, 0, 100304420, 3355157504],
   [0, 0, 0, 0, 0, 0, 0, 656356768]] ++
  [[0, 0, 0, 0, 0, 0, 0, 1]]

/-- `dec_table_64`, 18 rows by 16 columns (41_radix_tables.md R155). -/
def decTable64 : List (List Limb) :=
  [[249448, 3719864065, 173911550, 4021557284, 3115810883, 2498525019, 1035889824, 627529458, 3840888383, 3728167192, 2901437456, 3863405776, 1540739182, 1570766848, 0, 0],
   [0, 1632305, 1882780341, 4128706713, 1023671068, 2618421812, 2005415586, 1062993857, 3577221846, 3960476767, 1695615427, 2597060712, 669472826, 104923136, 0, 0],
   [0, 0, 10681231, 1422956801, 2406345166, 4058671871, 2143913881, 4169135587, 2414104418, 2549553452, 997594232, 713340517, 2290070198, 1103833088, 0, 0],
   [0, 0, 0, 69894212, 1038812943, 1785020643, 1285619000, 2301468615, 3492037905, 314610629, 2761740102, 3410618104, 1699516363, 910779968, 0, 0]] ++
  [[0, 0, 0, 0, 457363084, 927569770, 3976106370, 1389513021, 2107865525, 3716679421, 1828091393, 2088408376, 439156799, 2579227194, 0, 0],
   [0, 0, 0, 0, 0, 2992822783, 383623235, 3862831115, 112778334, 339767049, 1447250220, 486575164, 3495303162, 2209946163, 268435456, 0],
   [0, 0, 0, 0, 0, 4, 2404108010, 2962826229, 3998086794, 1893006839, 2266258239, 1429430446, 307953032, 2361423716, 176160768, 0],
   [0, 0, 0, 0, 0, 0, 29, 3596590989, 3044036677, 1332209423, 1014420882, 868688145, 4264082837, 3688771808, 2485387264, 0]] ++
  [[0, 0, 0, 0, 0, 0, 0, 195, 1054003707, 3711696540, 582574436, 3549229270, 1088536814, 2338440092, 1468637184, 0],
   [0, 0, 0, 0, 0, 0, 0, 0, 1277, 2650397687, 3801011509, 2074386530, 3248244966, 687255411, 2959155456, 0],
   [0, 0, 0, 0, 0, 0, 0, 0, 0, 8360, 1184754854, 3047609191, 3418394749, 132556120, 1199103528, 0],
   [0, 0, 0, 0, 0, 0, 0, 0, 0, 0, 54706, 2996985344, 1834629191, 3964963911, 485140318, 1073741824]] ++
  [[0, 0, 0, 0, 0, 0, 0, 0, 0, 0, 0, 357981, 1476998812, 3337178590, 1483338760, 4194304000],
   [0, 0, 0, 0, 0, 0, 0, 0, 0, 0, 0, 0, 2342503, 3052466824, 2595180627, 17825792],
   [0, 0, 0, 0, 0, 0, 0, 0, 0, 0, 0, 0, 0, 15328518, 1933902296, 4063920128],
   [0, 0, 0, 0, 0, 0, 0, 0, 0, 0, 0, 0, 0, 0, 100304420, 3355157504]] ++
  [[0, 0, 0, 0, 0, 0, 0, 0, 0, 0, 0, 0, 0, 0, 0, 656356768],
   [0, 0, 0, 0, 0, 0, 0, 0, 0, 0, 0, 0, 0, 0, 0, 1]]

/-- The encode table of a size (30_encoding.md R82). -/
def encTable : Size → List (List Limb)
  | .n32 => encTable32
  | .n64 => encTable64

/-- The decode table of a size (30_encoding.md R82). -/
def decTable : Size → List (List Limb)
  | .n32 => decTable32
  | .n64 => decTable64

end Sys2Proof.Machine
end

