-- ==== Sys2Proof/Machine/Components.lean ====
section
/-! DEFINITION. The sub-blocks as functions (40_components.md R103 to R120). Arrays are lists, index 0 the most significant element
(00_scope.md R9). Accumulators are 64 bits wide and add modulo 2^64 (00_scope.md R10). -/

namespace Sys2Proof.Machine

/-- `LZD(x, P)`: the number of leading elements that satisfy `P` (40_components.md R103). -/
def lzd {α : Type} (P : α → Bool) : List α → Nat
  | [] => 0
  | x :: xs => if P x then lzd P xs + 1 else 0

/-- `LZD_BYTES` and `LZD_DIGITS`: leading zeros (40_components.md R104). -/
def lzdZeros (x : List Byte) : Nat := lzd (· == 0x00#8) x

/-- `LZD_ONES`: leading '1' characters (40_components.md R104). -/
def lzdOnes (x : List Byte) : Nat := lzd (· == 0x31#8) x

/-- `PACK`: every four bytes are one big-endian 32-bit limb (40_components.md R105). -/
def pack : List Byte → List Limb
  | b0 :: b1 :: b2 :: b3 :: rest =>
    ((b0.setWidth 32 <<< 24) ||| (b1.setWidth 32 <<< 16) ||| (b2.setWidth 32 <<< 8) ||| b3.setWidth 32) :: pack rest
  | _ => []

/-- `LIMB32`: the low 32 bits of an accumulator (40_components.md R107). -/
def limb32 (a : Acc) : Limb := a.setWidth 32

/-- The four bytes of one limb, the most significant first (40_components.md R108). -/
def limbBytes (x : Limb) : List Byte :=
  [(x >>> 24).setWidth 8, (x >>> 16).setWidth 8, (x >>> 8).setWidth 8, x.setWidth 8]

/-- `UNPACK` (40_components.md R108). -/
def unpack (bin : List Acc) : List Byte := bin.flatMap fun a => limbBytes (limb32 a)

/-- Add one factor's products with a table row into as many accumulators: `a[k] + x * row[k]`, 64-bit (40_components.md R110, R120). -/
def macRow (x : Acc) (acc : List Acc) (row : List Limb) : List Acc :=
  List.zipWith (fun a t => a + x * t.setWidth 64) acc row

/-- `MAC_ENC` of one limb and its row: column `k` feeds accumulator `k + 1`, accumulator 0 gets no product (40_components.md R110). -/
def macEnc (limb : Limb) (row : List Limb) : List Acc → List Acc
  | [] => []
  | a0 :: rest => a0 :: macRow (limb.setWidth 64) rest row

/-- A batch of limbs with their rows, in rising order (40_components.md R111). -/
def encBatch : List Limb → List (List Limb) → List Acc → List Acc
  | x :: xs, row :: rows, acc => encBatch xs rows (macEnc x row acc)
  | _, _, acc => acc

/-- `a / R1DIV` on an accumulator. -/
def divR1 (a : Acc) : Acc := a / BitVec.ofNat 64 r1div

/-- `a % R1DIV` on an accumulator. -/
def modR1 (a : Acc) : Acc := a % BitVec.ofNat 64 r1div

/-- `MINI_REDUCE`: `acc[16]` is reduced into `acc[15]` (40_components.md R112, 90_conflicts.md C1). -/
def miniReduce (acc : List Acc) : List Acc :=
  let a15 := acc.getD 15 0
  let a16 := acc.getD 16 0
  (acc.set 15 (a15 + divR1 a16)).set 16 (modR1 a16)

/-- `ENC_TRANSFORM`: one batch of 8 limbs, or two with the mini-reduction between them (40_components.md R109, R111). -/
def encTransform (sz : Size) (limb : List Limb) : List Acc :=
  match sz with
  | .n32 => encBatch limb encTable32 (List.replicate 9 0)
  | .n64 =>
    let batch1 := encBatch (limb.take 8) (encTable64.take 8) (List.replicate 18 0)
    encBatch (limb.drop 8) (encTable64.drop 8) (miniReduce batch1)

/-- Carry propagation from the last element to the first: each element keeps `lo` of its value plus the carry from its right, and
hands `hi` of it to its left. The result is the carry out of the first element, and the elements. -/
def carryUp (hi lo : Acc → Acc) : List Acc → Acc × List Acc
  | [] => (0, [])
  | a :: rest =>
    let (c, rest') := carryUp hi lo rest
    (hi (a + c), lo (a + c) :: rest')

/-- Carry propagation into an element 0 that takes the last carry and is not reduced itself. -/
def normalize (hi lo : Acc → Acc) : List Acc → List Acc
  | [] => []
  | a0 :: rest =>
    let (c, rest') := carryUp hi lo rest
    (a0 + c) :: rest'

/-- `NORM58`: for `i` from `C-1` down to 1, carry in base 58^5 (40_components.md R113, 90_conflicts.md C4). -/
def norm58 (acc : List Acc) : List Acc := normalize divR1 modR1 acc

/-- `NORM32`: for `k` from `L-1` down to 1, carry in base 2^32 (40_components.md R115, 90_conflicts.md C5). -/
def norm32 (bin : List Acc) : List Acc := normalize (· >>> 32) (· &&& 0xFFFFFFFF#64) bin

/-- The five base-58 digits of one accumulator (40_components.md R117). -/
def expandOne (a : Acc) : List Byte :=
  [(a / 11316496#64).setWidth 8, ((a / 195112#64) % 58#64).setWidth 8, ((a / 3364#64) % 58#64).setWidth 8,
   ((a / 58#64) % 58#64).setWidth 8, (a % 58#64).setWidth 8]

/-- `EXPAND` (40_components.md R117). -/
def expand (acc : List Acc) : List Byte := acc.flatMap expandOne

/-- `RECOMPOSE`: every five digits are one 64-bit intermediate (40_components.md R119). -/
def recompose : List Byte → List Acc
  | d0 :: d1 :: d2 :: d3 :: d4 :: rest =>
    (d0.setWidth 64 * 11316496#64 + d1.setWidth 64 * 195112#64 + d2.setWidth 64 * 3364#64 + d3.setWidth 64 * 58#64
      + d4.setWidth 64) :: recompose rest
  | _ => []

/-- The multiply-accumulate of the intermediates with the rows of a decode table (40_components.md R120). -/
def decBatch : List Acc → List (List Limb) → List Acc → List Acc
  | x :: xs, row :: rows, bin => decBatch xs rows (macRow x bin row)
  | _, _, bin => bin

/-- `DEC_TRANSFORM` (40_components.md R120). -/
def decTransform (sz : Size) (inter : List Acc) : List Acc :=
  decBatch inter (decTable sz) (List.replicate sz.limbs 0)

end Sys2Proof.Machine
end

