-- ==== Sys2Proof/WellFormed.lean ====
section
/-! DEFINITION. Well-formed commands: the fields of the format CMD8 and the checks on them (30_encoding.md R81, R84).
The checks on a host program stand with its syntax, in Machine/HostSyntax.lean. -/

namespace Sys2Proof

/-- The three fields of a command byte (30_encoding.md R81). -/
structure CommandFields where
  /-- bits 1:0 -/
  op : BitVec 2
  /-- bit 2 -/
  sz : BitVec 1
  /-- bits 7:3 -/
  rsvd : BitVec 5
deriving DecidableEq, Repr

/-- OP is 0b01 (encode) or 0b10 (decode); 0b00 and 0b11 are reserved (30_encoding.md R81). -/
def CommandFields.opLegal (f : CommandFields) : Bool := f.op == 0b01#2 || f.op == 0b10#2

/-- RSVD must be 0b00000 (30_encoding.md R81). -/
def CommandFields.rsvdZero (f : CommandFields) : Bool := f.rsvd == 0#5

/-- Both checks: the fields name one of the four commands (30_encoding.md R83, R84). -/
def CommandFields.wf (f : CommandFields) : Bool := f.opLegal && f.rsvdZero

/-- The OP, SZ and RSVD columns of a command (30_encoding.md R81, R83). -/
def Instr.fields : Instr → CommandFields
  | .enc32 => { op := 0b01, sz := 0, rsvd := 0 }
  | .enc64 => { op := 0b01, sz := 1, rsvd := 0 }
  | .dec32 => { op := 0b10, sz := 0, rsvd := 0 }
  | .dec64 => { op := 0b10, sz := 1, rsvd := 0 }

/-- A command is well formed when its fields are. -/
def Instr.wf (i : Instr) : Bool := i.fields.wf

end Sys2Proof
end

