-- ==== Sys2Proof/Decode.lean ====
section
/-! DEFINITION. The decoder, total on any bytes and rejecting by name, and the encoder (30_encoding.md R81 to R85). -/

namespace Sys2Proof

/-- Why a byte sequence names no command (30_encoding.md R84). -/
inductive DecodeError where
  /-- there is no byte to decode -/
  | noByte
  /-- bits 7:3 are not 00000 -/
  | reservedBits (b : Byte)
  /-- bits 7:3 are 00000 and OP is 00 or 11 -/
  | reservedOp (b : Byte)
deriving DecidableEq, Repr

/-- The fields of a command byte: OP = cmd[1:0], SZ = cmd[2], RSVD = cmd[7:3] (30_encoding.md R81). -/
def splitCommand (b : Byte) : CommandFields :=
  { op := b.extractLsb' 0 2, sz := b.extractLsb' 2 1, rsvd := b.extractLsb' 3 5 }

/-- The command byte of three fields (30_encoding.md R81). -/
def packCommand (f : CommandFields) : Byte := f.rsvd ++ (f.sz ++ f.op)

/-- The command a byte names, or the reason it is reserved (30_encoding.md R81, R83, R84). -/
def decodeCommand (b : Byte) : Except DecodeError Instr :=
  let f := splitCommand b
  if f.rsvd ≠ 0#5 then .error (.reservedBits b)
  else if f.op = 0b01#2 then .ok (if f.sz = 0#1 then .enc32 else .enc64)
  else if f.op = 0b10#2 then .ok (if f.sz = 0#1 then .dec32 else .dec64)
  else .error (.reservedOp b)

/-- Decode the first byte of a sequence and give the rest back: every command is one byte (30_encoding.md R85). -/
def decode : List Byte → Except DecodeError (Instr × List Byte)
  | [] => .error .noByte
  | b :: rest =>
    match decodeCommand b with
    | .ok i => .ok (i, rest)
    | .error e => .error e

/-- The command byte of an instruction (30_encoding.md R83, first column). -/
def encodeByte : Instr → Byte
  | .enc32 => 0x01#8
  | .enc64 => 0x05#8
  | .dec32 => 0x02#8
  | .dec64 => 0x06#8

/-- The words of an instruction: one byte (30_encoding.md R80, R85). -/
def encode (i : Instr) : List Byte := [encodeByte i]

/-- The `n` bytes of `w`, the least significant first, as spec/opcode_table.json numbers an instruction's bits. -/
def tableBytes : Nat → Nat → List Byte
  | 0, _ => []
  | n + 1, w => BitVec.ofNat 8 w :: tableBytes n (w / 256)

/-- The instruction the decoder reads from a word of the opcode table of `nbits` bits. -/
def decodeTableWord (nbits w : Nat) : Option Instr :=
  match decode (tableBytes (nbits / 8) w) with
  | .ok (i, _) => some i
  | .error _ => none

end Sys2Proof
end

