-- ==== Sys2Proof/Machine/Flags.lean ====
section
/-! DEFINITION. The STATUS register: its four flags, and the value each event leaves (10_state.md R25 to R29, R35). -/

namespace Sys2Proof.Machine

/-- STATUS from its four flags; bits 7:4 are 0 (10_state.md R25). -/
def statusOf (busy done err illegal : Bool) : Byte :=
  0b0000#4 ++ (BitVec.ofBool illegal ++ (BitVec.ofBool err ++ (BitVec.ofBool done ++ BitVec.ofBool busy)))

/-- STATUS.BUSY, bit 0 (10_state.md R26). -/
def statusBusy (b : Byte) : Bool := b.getLsbD 0

/-- STATUS.DONE, bit 1 (10_state.md R27). -/
def statusDone (b : Byte) : Bool := b.getLsbD 1

/-- STATUS.ERR, bit 2 (10_state.md R28). -/
def statusErr (b : Byte) : Bool := b.getLsbD 2

/-- STATUS.ILLEGAL, bit 3 (10_state.md R29). -/
def statusIllegal (b : Byte) : Bool := b.getLsbD 3

/-- The row "legal CMD write, IDLE" of 10_state.md R35: 0x01. -/
def statusIssued : Byte := statusOf true false false false

/-- The row "reserved CMD write, IDLE" of 10_state.md R35: 0x0A. -/
def statusIllegalCommand : Byte := statusOf false true false true

/-- The rows of a completion that succeeds in 10_state.md R35: 0x02. -/
def statusSuccess : Byte := statusOf false true false false

/-- The row of a decode that fails in 10_state.md R35: 0x06. -/
def statusFailure : Byte := statusOf false true true false

end Sys2Proof.Machine
end

