-- ==== Sys2Proof/Machine/Ops.lean ====
section
/-! DEFINITION. The shared operations: how a command is issued, how a reserved byte is reported, how a completion ends, what a host
read and a host write do, and reset (60_exceptions.md R220 to R233, 20_memory.md R52 to R65, 70_reset_and_hazards.md R250, R251).
The hardware has no exception entry and no exception return (60_exceptions.md R227, R228), so there is none here. -/

namespace Sys2Proof.Machine

/-- Go on with the next state of an outcome, if it has one. -/
def onNext (o : Host.Outcome State Fault Refusal) (f : State → Host.Outcome State Fault Refusal) :
    Host.Outcome State Fault Refusal :=
  match o with
  | .next s => f s
  | .fault r => .fault r
  | .refused r => .refused r

/-- Issue the command `i` that the byte `b` names (60_exceptions.md R220). The buffers and OUT_LEN do not change. -/
def issueCommand (i : Instr) (b : Byte) (s : State) : State :=
  { s with
    cmd := b
    op := i
    phase := .busy
    status := statusIssued
    countdown := Config.latency i s.issues
    issues := s.issues + 1 }

/-- Report a reserved byte (60_exceptions.md R221). Nothing else changes. -/
def reportIllegal (b : Byte) (s : State) : State :=
  { s with cmd := b, status := statusIllegalCommand }

/-- A host write to CMD (60_exceptions.md R220, R221, R222): the BUSY check comes before the code check (R235). -/
def writeCmd (b : Byte) (s : State) : Host.Outcome State Fault Refusal :=
  match s.phase with
  | .busy => .fault (.hostProtocolFault (.cmdWhileBusy b))
  | .idle =>
    match decodeCommand b with
    | .ok i => .next (issueCommand i b s)
    | .error _ => .next (reportIllegal b s)

/-- A host write to `IN_BUF[i]` (10_state.md R31, 60_exceptions.md R232). -/
def writeInBuf (i : Nat) (v : Byte) (s : State) : Host.Outcome State Fault Refusal :=
  match s.phase with
  | .busy => .fault (.hostProtocolFault (.inBufWhileBusy i v))
  | .idle => .next { s with mem := Memory.write s.mem (inBase + i) v }

/-- An 8-bit host write (60_exceptions.md R244). Writes to read-only and reserved addresses are ignored (10_state.md R36). -/
def hostWrite (a : Addr) (v : Byte) (s : State) : Host.Outcome State Fault Refusal :=
  match placeOf a with
  | .cmd => writeCmd v s
  | .inBuf i => writeInBuf i v s
  | .status => .next s
  | .outLen => .next s
  | .outBuf _ => .next s
  | .reserved => .next s

/-- A draw: any value, a fresh one for each read (00_scope.md R11). -/
def takeDraw (s : State) : Byte × State := (Config.draw s.draws, { s with draws := s.draws + 1 })

/-- The value of a byte that may be unspecified: itself, or a draw. -/
def orDraw (v : Option Byte) (s : State) : Byte × State :=
  match v with
  | some b => (b, s)
  | none => takeDraw s

/-- What the register OUT_LEN holds, `none` while it is unspecified (10_state.md R30). -/
def RegValue.known : RegValue → Option Byte
  | .defined v => some v
  | .unspecified => none

/-- The value that a host read may rely on, `none` where the read returns a draw (60_exceptions.md R244, 20_memory.md R53, R65). -/
def visible (a : Addr) (s : State) : Option Byte :=
  match placeOf a with
  | .cmd => some s.cmd
  | .status => some s.status
  | .outLen => match s.phase with | .busy => none | .idle => s.outLen.known
  | .inBuf i => inBufAt s i
  | .outBuf i => match s.phase with | .busy => none | .idle => outBufAt s i
  | .reserved => none

/-- An 8-bit host read: the byte returned and the state after (60_exceptions.md R244). -/
def hostRead (a : Addr) (s : State) : Byte × State := orDraw (visible a s) s

/-- A host read as a bus transaction (30_encoding.md R89). -/
def busRead (a : Addr) (s : State) : Byte × State :=
  let (v, s') := hostRead a s
  (v, { s' with trace := .gave a v :: s'.trace })

/-- A host write as a bus transaction (30_encoding.md R89). -/
def busWrite (a : Addr) (v : Byte) (s : State) : Host.Outcome State Fault Refusal :=
  onNext (hostWrite a v s) fun s' => .next { s' with trace := .wrote a v :: s'.trace }

/-- One host access of any width; a width other than 8 is refused and no part of it performed (60_exceptions.md R233). -/
def hostAccess (x : Access) (s : State) : Host.Outcome State Fault Refusal :=
  match x with
  | .read a width => if width = 8 then .next (busRead a s).2 else .refused (.wideAccess a.toNat width)
  | .write a width data => if width = 8 then busWrite a (data.setWidth 8) s else .refused (.wideAccess a.toNat width)

/-- The end of a completion step, in one indivisible step with its buffer writes (60_exceptions.md R223). -/
def complete (status : Byte) (s : State) : State := { s with phase := .idle, status := status }

/-- Reset of the engine, abandoning any command (70_reset_and_hazards.md R250, R251). The host is another agent: what it holds stays. -/
def resetEngine (s : State) : State :=
  { s with
    phase := State.reset.phase
    op := State.reset.op
    cmd := State.reset.cmd
    status := State.reset.status
    outLen := State.reset.outLen
    mem := State.reset.mem
    countdown := 0 }

/-- Put a command byte where the next step takes it up: a legal one latched with its latency over and no reset before it, a
reserved one as the very next host write, since reporting it is all that happens (60_exceptions.md R220, R221; log 9). -/
def placeCommand (b : Byte) (s : State) : State :=
  match decodeCommand b with
  | .ok i => { issueCommand i b s with countdown := 0, inputs := s.inputs.dropWhile (· == .reset) }
  | .error _ =>
    { s with phase := .idle, status := s.status &&& 0xFE#8, inputs := .access (.write 0x000 8 b) :: s.inputs }

end Sys2Proof.Machine
end

