-- ==== Sys2Proof/Machine/DecodeFamily.lean ====
section
/-! DEFINITION. The decode family: DEC32 and DEC64 (43_decode.md). -/

namespace Sys2Proof.Machine

/-- What the scan of the text ends with (43_decode.md R190). -/
inductive Scan where
  /-- the terminator was found; the characters before it -/
  | text (t : List Byte)
  /-- no terminator in bounds, or a character outside the alphabet -/
  | fail
  /-- an unwritten byte was read -/
  | stop (f : Fault)
deriving DecidableEq, Repr

/-- Put a character in front of a scanned text. -/
def Scan.cons (c : Byte) : Scan → Scan
  | .text t => .text (c :: t)
  | .fail => .fail
  | .stop f => .stop f

/-- The format STR_IN_N: scan IN_BUF from index `cc` with `fuel` bytes left before index `E` (43_decode.md R190). -/
def scanText (m : List Host.Cell) : Nat → Nat → Scan
  | _, 0 => .fail
  | cc, fuel + 1 =>
    match readInput m cc with
    | .error f => .stop f
    | .ok c =>
      if c = 0x00#8 then .text []
      else if inverse c = sentinel then .fail
      else (scanText m (cc + 1) fuel).cons c

/-- The digit array: the characters' digits behind `RAW - cc` zeros (43_decode.md R191). -/
def decodeRaw (sz : Size) (t : List Byte) : List Byte :=
  List.replicate (sz.raw - t.length) 0x00#8 ++ t.map inverse

/-- Recompose, transform, normalize (43_decode.md R192, R193). -/
def decodeLimbs (sz : Size) (t : List Byte) : List Acc := norm32 (decTransform sz (recompose (decodeRaw sz t)))

/-- The overflow check and the canonical check; `none` is FAIL (43_decode.md R194, R195, 90_conflicts.md C2). -/
def decodeText (sz : Size) (t : List Byte) : Option (List Byte) :=
  let bin := decodeLimbs sz t
  if bin.getD 0 0 > 0xFFFFFFFF#64 then none
  else
    let out := unpack bin
    if lzdZeros out ≠ lzdOnes t then none else some out

/-- Completion of a decode that succeeds (43_decode.md R196). -/
def finishDecode (out : List Byte) (s : State) : State :=
  complete statusSuccess { s with mem := Memory.writeBytes s.mem outBase out }

/-- Completion of a decode that fails: `OUT_BUF[0..N-1]` becomes unspecified (43_decode.md R196). -/
def failDecode (sz : Size) (s : State) : State :=
  complete statusFailure { s with mem := Memory.eraseRange s.mem outBase sz.bytes }

/-- DECODE(N) as a completion step (43_decode.md R190 to R196, 60_exceptions.md R223). -/
def runDecode (sz : Size) (s : State) : Host.Outcome State Fault Refusal :=
  match scanText s.mem 0 sz.encoded with
  | .stop f => .fault f
  | .fail => .next (failDecode sz s)
  | .text t =>
    match decodeText sz t with
    | some out => .next (finishDecode out s)
    | none => .next (failDecode sz s)

/-- `DEC32` (43_decode.md R197). -/
def execDec32 (s : State) : Host.Outcome State Fault Refusal := runDecode .n32 s

/-- `DEC64` (43_decode.md R198). -/
def execDec64 (s : State) : Host.Outcome State Fault Refusal := runDecode .n64 s

end Sys2Proof.Machine
end

