-- ==== Sys2Proof/Machine/EncodeFamily.lean ====
section
/-! DEFINITION. The encode family: ENC32 and ENC64 (42_encode.md). -/

namespace Sys2Proof.Machine

/-- Steps 3 to 6 of ENCODE: the raw base-58 digits of the binary operand (42_encode.md R170). -/
def encodeRaw (sz : Size) (b : List Byte) : List Byte := expand (norm58 (encTransform sz (pack b)))

/-- Step 8 of ENCODE: the leading raw digits to drop, `z_raw - z_in` (42_encode.md R170, R173). -/
def encodeSkip (sz : Size) (b : List Byte) : Nat := lzdZeros (encodeRaw sz b) - lzdZeros b

/-- The text of step 9 of ENCODE, without its terminator (42_encode.md R170). -/
def encodeText (sz : Size) (b : List Byte) : List Byte := ((encodeRaw sz b).drop (encodeSkip sz b)).map alphabet

/-- Steps 9 and 10 of ENCODE: the text and its terminator, then the rest of the `E` bytes unspecified (42_encode.md R170, R175). -/
def storeText (sz : Size) (text : List Byte) (m : List Host.Cell) : List Host.Cell :=
  Memory.eraseRange (Memory.writeBytes m outBase (text ++ [0x00#8])) (outBase + text.length + 1)
    (sz.encoded - (text.length + 1))

/-- Steps 9 to 11 of ENCODE with the completion of 60_exceptions.md R223 (42_encode.md R175, R176). -/
def finishEncode (sz : Size) (text : List Byte) (s : State) : State :=
  complete statusSuccess
    { s with mem := storeText sz text s.mem, outLen := .defined (BitVec.ofNat 8 text.length) }

/-- ENCODE(N) as a completion step (42_encode.md R170, 60_exceptions.md R223). -/
def runEncode (sz : Size) (s : State) : Host.Outcome State Fault Refusal :=
  match readBinary s.mem 0 sz.bytes with
  | .error f => .fault f
  | .ok b => .next (finishEncode sz (encodeText sz b) s)

/-- `ENC32` (42_encode.md R171). -/
def execEnc32 (s : State) : Host.Outcome State Fault Refusal := runEncode .n32 s

/-- `ENC64` (42_encode.md R172). -/
def execEnc64 (s : State) : Host.Outcome State Fault Refusal := runEncode .n64 s

end Sys2Proof.Machine
end

