-- ==== Sys2Proof/Machine/HostAgent.lean ====
section
/-! DEFINITION. The host agent: the statements of a host program and the expansion of its pseudo-instructions (30_encoding.md R89,
R90), one host turn, and which event comes next (60_exceptions.md R235, R244; 70_reset_and_hazards.md R262, R263). -/

namespace Sys2Proof.Machine

/-- The value of a host variable; free while nothing has set it (log 7). -/
def hostVar (x : HostVar) (s : State) : Int :=
  match s.hostVars.find? (·.1 == x) with
  | some (_, z) => z
  | none => Config.hostVarInit x

/-- Set `x` in a list of variables, in place if it is there. -/
def setVar (x : HostVar) (z : Int) : List (HostVar × Int) → List (HostVar × Int)
  | [] => [(x, z)]
  | (y, w) :: rest => if y = x then (x, z) :: rest else (y, w) :: setVar x z rest

/-- Set a host variable. -/
def setHostVar (x : HostVar) (z : Int) (s : State) : State := { s with hostVars := setVar x z s.hostVars }

/-- The value of a host expression (30_encoding.md R89). -/
def evalExpr (s : State) : HostExpr → Int
  | .lit z => z
  | .var x => hostVar x s
  | .add e f => evalExpr s e + evalExpr s f

/-- A 10-bit block address, if `z` is one. -/
def asAddr (z : Int) : Option Addr := if 0 ≤ z ∧ z < 1024 then some (BitVec.ofNat 10 z.toNat) else none

/-- A byte, if `z` is one. -/
def asByte (z : Int) : Option Byte := if 0 ≤ z ∧ z < 256 then some (BitVec.ofNat 8 z.toNat) else none

/-- Bit `k` of a host variable's value. DESIGN CHOICE (log 16): 30_encoding.md R89 gives no bits of a negative variable; the model takes
the two's complement bit, from division that rounds down. -/
def bitOf (z : Int) (k : Nat) : Bool := (z / 2 ^ k) % 2 == 1

/-- Continue at a label (30_encoding.md R89). -/
def jumpTo (l : Nat) (s : State) : Host.Outcome State Fault Refusal :=
  match s.prog.findIdx? (· == .label l) with
  | some pc => .next { s with hostPc := pc }
  | none => .refused (.hostLabel l)

/-- The reads of `GETB off, n` (30_encoding.md R90): `LB r_i, 0x200+off+i` for `i` in `0..n-1`.
DESIGN CHOICE (log 18): `off` is a value, read once when GETB starts and not again for each `LB`. -/
def getbReads (off : Int) (n : Nat) : List HostStmt :=
  (List.range n).map fun i => .lb (.ri i) (.lit (0x200 + off + i))

/-- One statement of a host program (30_encoding.md R89). DESIGN CHOICE (log 18): GETB evaluates its offset and its count once, when it
starts, and a count that is not positive makes no read. -/
def runStmt (st : HostStmt) (s : State) : Host.Outcome State Fault Refusal :=
  match st with
  | .sb a v =>
    match asAddr (evalExpr s a), asByte (evalExpr s v) with
    | some a', some v' => busWrite a' v' s
    | none, _ => .refused (.hostOperand (evalExpr s a))
    | some _, none => .refused (.hostOperand (evalExpr s v))
  | .lb x a =>
    match asAddr (evalExpr s a) with
    | some a' => .next (setHostVar x (busRead a' s).1.toNat (busRead a' s).2)
    | none => .refused (.hostOperand (evalExpr s a))
  | .issue c => busWrite 0x000 (encodeByte c) s
  | .cmd v =>
    match asByte (evalExpr s v) with
    | some v' => busWrite 0x000 v' s
    | none => .refused (.hostOperand (evalExpr s v))
  | .label _ => .next s
  | .brset x k l => if bitOf (hostVar x s) k then jumpTo l s else .next s
  | .brne x v l => if hostVar x s ≠ evalExpr s v then jumpTo l s else .next s
  | .mov x e => .next (setHostVar x (evalExpr s e) s)
  | .getb off n => .next { s with burst := getbReads (evalExpr s off) (evalExpr s n).toNat }

/-- The host's next statement: a read that a GETB still has to make, else the program's next; a program that is over does nothing. -/
def runProgram (s : State) : Host.Outcome State Fault Refusal :=
  match s.burst with
  | st :: rest => runStmt st { s with burst := rest }
  | [] =>
    match s.prog[s.hostPc]? with
    | some st => runStmt st { s with hostPc := s.hostPc + 1 }
    | none => .next s

/-- One host step passes (70_reset_and_hazards.md R262). -/
def tick (s : State) : State := { s with countdown := s.countdown - 1 }

/-- One turn of the host: the oldest input, or its program's next statement when no input waits. -/
def hostTurn (s : State) : Host.Outcome State Fault Refusal :=
  match s.inputs with
  | .access x :: rest => hostAccess x (tick { s with inputs := rest })
  | .program :: rest => runProgram (tick { s with inputs := rest })
  | .reset :: rest => .next (resetEngine { s with inputs := rest })
  | [] => runProgram (tick s)

/-- The event Reset (60_exceptions.md R244). -/
def resetEvent (s : State) : State := resetEngine { s with inputs := s.inputs.tail }

/-- Which event the next step is (60_exceptions.md R244). -/
inductive Event where
  | reset
  | complete
  | host
deriving DecidableEq, Repr

/-- A reset waits. -/
def resetWaits (s : State) : Bool := s.inputs.head? == some .reset

/-- The completion step is due: the engine is BUSY and LATENCY host steps have passed (60_exceptions.md R223). -/
def completionDue (s : State) : Bool := s.phase == .busy && s.countdown == 0

/-- Reset goes before every other step (60_exceptions.md R235); then the completion that is due; then the host. -/
def nextEvent (s : State) : Event :=
  if resetWaits s then .reset else if completionDue s then .complete else .host

/-- The statements of `SB 0x100+off+i, h[i]` for each byte in order (30_encoding.md R90, PUTB). -/
def putBytes : Nat → List Byte → List HostStmt
  | _, [] => []
  | off, v :: vs => .sb (.lit (0x100 + off)) (.lit v.toNat) :: putBytes (off + 1) vs

/-- The expansion of one line, `l` being its fresh label (30_encoding.md R90). -/
def expandLine (l : Nat) : HostLine → List HostStmt
  | .stmt st => [st]
  | .putb off h => putBytes off h
  | .puts off t => putBytes off (t ++ [0x00#8])
  | .wait => [.label l, .lb .r (.lit 0x001), .brset .r 0 l]
  | .gets => [.lb .n (.lit 0x002), .getb (.lit 0) (.add (.var .n) (.lit 1))]
  | .copytxt =>
    [.lb .n (.lit 0x002), .mov .i (.lit 0), .label l, .lb .r (.add (.lit 0x200) (.var .i)),
     .sb (.add (.lit 0x100) (.var .i)) (.var .r), .mov .i (.add (.var .i) (.lit 1)),
     .brne .i (.add (.var .n) (.lit 1)) l]

/-- The expansion of a program, its lines' fresh labels counting up from `l`. -/
def expandLines : Nat → List HostLine → List HostStmt
  | _, [] => []
  | l, x :: xs => expandLine l x ++ expandLines (l + 1) xs

/-- The labels that a line of the program itself places or branches to. -/
def lineLabels : HostLine → List Nat
  | .stmt st => st.placed.toList ++ st.target.toList
  | .putb _ _ => []
  | .puts _ _ => []
  | .wait => []
  | .gets => []
  | .copytxt => []

/-- A label above every given one. -/
def labelAbove : List Nat → Nat
  | [] => 0
  | l :: ls => max (l + 1) (labelAbove ls)

/-- A label above every label that the lines themselves place or branch to, so that no branch of theirs reaches the loop of a
pseudo-instruction (30_encoding.md R90, "a fresh label"; log 7). -/
def freshLabel (p : List HostLine) : Nat := labelAbove (p.flatMap lineLabels)

/-- The statements of a host program (30_encoding.md R89, R90). -/
def expandProgram (p : List HostLine) : List HostStmt := expandLines (freshLabel p) p

/-- The machine with a host program to run from its start. -/
def State.withProgram (p : List HostLine) (s : State) : State :=
  { s with prog := expandProgram p, hostPc := 0, burst := [] }

end Sys2Proof.Machine
end

