-- ==== Sys2Proof/Machine/Step.lean ====
section
/-! DEFINITION. One step of the transition system (60_exceptions.md R244). -/

namespace Sys2Proof.Machine

/-- One event: a reset, the completion of the latched command, or one turn of the host (60_exceptions.md R244). -/
def step (s : State) : Host.Outcome State Fault Refusal :=
  match nextEvent s with
  | .reset => .next (resetEvent s)
  | .complete => exec s.op s
  | .host => hostTurn s

/-- `s` with the command byte `w` placed so that the next step takes it up (log 9). A command is one byte (30_encoding.md R85). -/
def State.withFetchWord (s : State) (nbits w : Nat) : State :=
  match tableBytes (nbits / 8) w with
  | b :: _ => placeCommand b s
  | [] => s

end Sys2Proof.Machine
end

