-- ==== Sys2Proof/Machine/System.lean ====
section
/-! DEFINITION. Several engine instances, each with a host of its own (60_exceptions.md R242). They share only the constant tables,
which no step changes. -/

namespace Sys2Proof.Machine

/-- The instances of a system, each with its own copy of all the state (60_exceptions.md R242). -/
abbrev System := List State

/-- Instance `k` takes one step; a system without an instance `k` stays as it is (60_exceptions.md R242). -/
def System.stepAt (k : Nat) (sys : System) : Host.Outcome System Fault Refusal :=
  match sys[k]? with
  | none => .next sys
  | some s =>
    match step s with
    | .next s' => .next (sys.set k s')
    | .fault r => .fault r
    | .refused r => .refused r

end Sys2Proof.Machine
end

