-- ==== Sys2Proof/Machine/ValueFunctions.lean ====
section
/-! DEFINITION. The value functions that the rules' postconditions use (00_scope.md R13, 40_components.md). They describe what the
datapath computes; the machine does not call them. -/

namespace Sys2Proof.Machine

/-- The value of a digit string in a base, most significant digit first. -/
def placeValue (base : Nat) : List Nat → Nat
  | [] => 0
  | d :: ds => d * base ^ ds.length + placeValue base ds

/-- `int_be(b)` (00_scope.md R13, 20_memory.md R58). -/
def intBe (b : List Byte) : Nat := placeValue 256 (b.map BitVec.toNat)

/-- `val58(a)` (40_components.md). -/
def val58 (a : List Acc) : Nat := placeValue (58 ^ 5) (a.map BitVec.toNat)

/-- `val32(a)` of accumulators (40_components.md). -/
def val32 (a : List Acc) : Nat := placeValue (2 ^ 32) (a.map BitVec.toNat)

/-- `val32` of an array of limbs (40_components.md). -/
def val32Limbs (a : List Limb) : Nat := placeValue (2 ^ 32) (a.map BitVec.toNat)

/-- `valraw(r)` (40_components.md). -/
def valRaw (r : List Byte) : Nat := placeValue 58 (r.map BitVec.toNat)

/-- `b58(v)`: the shortest base-58 digit string, most significant first; empty for 0 (00_scope.md R13). -/
def b58 (v : Nat) : List Nat := (Nat.digits 58 v).reverse

/-- The text `'1'^z ++ b58(v)` of a binary operand, in ALPHABET characters (42_encode.md R174). -/
def canonicalText (b : List Byte) : List Byte :=
  List.replicate (lzdZeros b) 0x31#8 ++ (b58 (intBe b)).map fun d => alphabet (BitVec.ofNat 8 d)

/-- A character that a text may hold: not the terminator, and in the alphabet (43_decode.md R190). -/
def isTextChar (c : Byte) : Bool := c != 0x00#8 && validChar c

/-- The base-58 value of a text, `Σ INVERSE[s[t]]·58^(cc-1-t)` (40_components.md R121). -/
def textValue (t : List Byte) : Nat := valRaw (t.map inverse)

/-- Each accumulator is at most its bound (41_radix_tables.md R156, R157). -/
abbrev Fits (acc : List Acc) (bs : List Nat) : Prop := List.Forall₂ (fun a b => a.toNat ≤ b) acc bs

end Sys2Proof.Machine
end

