-- ==== Sys2Proof/Safety.lean ====
section
/-! DEFINITION. What the claims call a good state and a safe access: the invariant of the state, the engine's and the host's part of
the state, and the hazards that the host must respect (70_reset_and_hazards.md R255 to R257). -/

namespace Sys2Proof.Machine

/-- The spec's state of two machines is the same (10_state.md). -/
structure State.SameEngine (s t : State) : Prop where
  phase : t.phase = s.phase
  op : t.op = s.op
  cmd : t.cmd = s.cmd
  status : t.status = s.status
  outLen : t.outLen = s.outLen
  mem : t.mem = s.mem

/-- What a completion step never touches: the command registers and everything of the host's (42_encode.md, 43_decode.md). -/
structure State.SameCommandAndHost (s t : State) : Prop where
  op : t.op = s.op
  cmd : t.cmd = s.cmd
  countdown : t.countdown = s.countdown
  issues : t.issues = s.issues
  draws : t.draws = s.draws
  inputs : t.inputs = s.inputs
  trace : t.trace = s.trace
  prog : t.prog = s.prog
  hostPc : t.hostPc = s.hostPc
  burst : t.burst = s.burst
  hostVars : t.hostVars = s.hostVars

/-- What OUT_LEN may hold: `unspecified`, or a length of 10_state.md R30. -/
def RegValue.legalLength : RegValue → Prop
  | .unspecified => True
  | .defined v => (32 ≤ v.toNat ∧ v.toNat ≤ 44) ∨ (64 ≤ v.toNat ∧ v.toNat ≤ 88)

/-- The invariant: memory in canonical form, STATUS.BUSY equal to the phase (10_state.md R26), STATUS one of the five values and CMD
as the table of 60_exceptions.md R225 says, OUT_LEN a legal length (10_state.md R30). -/
structure State.Inv (s : State) : Prop where
  memory : Memory.wf s.mem
  busy : statusBusy s.status = true ↔ s.phase = .busy
  statusValue : s.status ∈ [0x00#8, 0x01#8, 0x02#8, 0x06#8, 0x0A#8]
  latched : s.phase = .busy → s.cmd = encodeByte s.op
  fresh : s.status = 0x00#8 → s.cmd = 0x00#8 ∧ s.outLen = .unspecified ∧ ∀ i, outBufAt s i = none
  success : s.status = 0x02#8 → ∃ i, s.cmd = encodeByte i
  failure : s.status = 0x06#8 → s.cmd = encodeByte .dec32 ∨ s.cmd = encodeByte .dec64
  illegal : s.status = 0x0A#8 → ∀ i, s.cmd ≠ encodeByte i
  length : s.outLen.legalLength

/-- The access is 8 bits wide and breaks none of the hazards: no write to CMD or IN_BUF while BUSY
(70_reset_and_hazards.md R256, R257; 60_exceptions.md R233). -/
def Access.safe (x : Access) (s : State) : Bool :=
  match x with
  | .read _ width => width == 8
  | .write a width _ =>
    width == 8 &&
      match s.phase, placeOf a with
      | .busy, .cmd => false
      | .busy, .inBuf _ => false
      | _, _ => true

/-- The command is an encode. -/
def isEncode : Instr → Bool
  | .enc32 => true
  | .enc64 => true
  | .dec32 => false
  | .dec64 => false

/-- The size a command works on (00_scope.md R6). -/
def commandSize : Instr → Size
  | .enc32 => .n32
  | .enc64 => .n64
  | .dec32 => .n32
  | .dec64 => .n64

/-- How many bytes of OUT_BUF, from index 0, a command may change (20_memory.md R63). -/
def writeWindow (i : Instr) : Nat := if isEncode i then (commandSize i).encoded else (commandSize i).bytes

/-- IN_BUF holds these bytes from index 0. -/
def InBufHolds (s : State) (b : List Byte) : Prop := ∀ k < b.length, inBufAt s k = b[k]?

/-- OUT_BUF holds these bytes from index 0. -/
def OutBufHolds (s : State) (b : List Byte) : Prop := ∀ k < b.length, outBufAt s k = b[k]?

/-- Every byte of memory reads the same, except perhaps the first `n` of OUT_BUF. -/
def SameMemoryBut (n : Nat) (s t : State) : Prop :=
  ∀ a, ¬ (outBase ≤ a ∧ a < outBase + n) → Memory.read t.mem a = Memory.read s.mem a

/-- The scan of a decode goes on past every index below `k`: each holds a character of a text (43_decode.md R190). -/
def ScanPasses (s : State) (k : Nat) : Prop := ∀ j < k, ∃ c, inBufAt s j = some c ∧ isTextChar c = true

/-- Every byte that the command would read is written (20_memory.md R62): for an encode the operand, for a decode each index below
`E` that the scan reaches. -/
def ReadSetWritten (i : Instr) (s : State) : Prop :=
  if isEncode i then ∀ k < (commandSize i).bytes, inWritten s k = true
  else ∀ k < (commandSize i).encoded, ScanPasses s k → inWritten s k = true

/-- Two states agree on every byte of IN_BUF that the command reads in the first of them (20_memory.md R62). -/
def AgreeOnReadSet (i : Instr) (s u : State) : Prop :=
  if isEncode i then ∀ k < (commandSize i).bytes, inBufAt u k = inBufAt s k
  else ∀ k < (commandSize i).encoded, ScanPasses s k → inBufAt u k = inBufAt s k

/-- The four flags of a STATUS value: BUSY, DONE, ERR, ILLEGAL (10_state.md R25). -/
def flagsOf (b : Byte) : Bool × Bool × Bool × Bool := (statusBusy b, statusDone b, statusErr b, statusIllegal b)

/-- `k` steps, ending at the first fault or refusal. -/
def runSteps : Nat → State → Host.Outcome State Fault Refusal
  | 0, s => .next s
  | k + 1, s => onNext (step s) (runSteps k)

end Sys2Proof.Machine
end

