-- ==== Sys2Proof/Certificates/Slice0/Obligations.lean ====
section
/-! DEFINITION. The statements for the provers. Where a statement speaks of a value that the spec calls a draw or LATENCY, it holds
for every value, since those are uninterpreted (log 1, log 5). Where the spec marks a rule as derived, it is the spec's own inference,
and the statement's basis is `derived`. -/

open Sys2Proof Sys2Proof.Machine

/-! Encoding (30_encoding.md) -/

/-- 30_encoding.md R83: the four command bytes with their OP, SZ and RSVD fields (R81), each matched as a whole byte, are the
complete list. -/
def Obligations.DecoderMatchesCommandTable : Prop :=
  (∀ b i, decodeCommand b = .ok i ↔ b = encodeByte i) ∧
    encodeByte .enc32 = 0b00000001#8 ∧ encodeByte .enc64 = 0b00000101#8 ∧
    encodeByte .dec32 = 0b00000010#8 ∧ encodeByte .dec64 = 0b00000110#8 ∧
    splitCommand (encodeByte .enc32) = { op := 0b01, sz := 0, rsvd := 0 } ∧
    splitCommand (encodeByte .enc64) = { op := 0b01, sz := 1, rsvd := 0 } ∧
    splitCommand (encodeByte .dec32) = { op := 0b10, sz := 0, rsvd := 0 } ∧
    splitCommand (encodeByte .dec64) = { op := 0b10, sz := 1, rsvd := 0 }

/-- 30_encoding.md R84: every other byte is reserved; while IDLE it reports ILLEGAL and changes no output, while BUSY it is the
host protocol fault of any CMD write. -/
def Obligations.ReservedBytesRunNothing : Prop :=
  ∀ b : Byte, b ∉ [0x01#8, 0x05#8, 0x02#8, 0x06#8] →
    (∃ e, decodeCommand b = .error e) ∧
    (∀ s : State, s.phase = .idle → ∃ t, hostWrite 0x000 b s = .next t ∧
      t.phase = .idle ∧ statusIllegal t.status = true ∧ t.mem = s.mem ∧ t.outLen = s.outLen) ∧
    (∀ s : State, s.phase = .busy → hostWrite 0x000 b s = .fault (.hostProtocolFault (.cmdWhileBusy b)))

/-- 30_encoding.md R85: a command is exactly one byte, and decoding what was encoded gives the command and the bytes after it. -/
def Obligations.DecodeEncodeAgree : Prop :=
  ∀ (i : Instr) (rest : List Byte), (encode i).length = 1 ∧ decode (encode i ++ rest) = .ok (i, rest) ∧
    decodeTableWord 8 (encodeByte i).toNat = some i

/-! Registers, address map and host accesses (10_state.md, 20_memory.md, 60_exceptions.md) -/

/-- 20_memory.md R52, the address column: CMD, STATUS, OUT_LEN, the two buffers, and nothing else. -/
def Obligations.AddressMapPlaces : Prop :=
  placeOf 0x000 = .cmd ∧ placeOf 0x001 = .status ∧ placeOf 0x002 = .outLen ∧
    (∀ i ≤ 88, placeOf (BitVec.ofNat 10 (0x100 + i)) = .inBuf i ∧ placeOf (BitVec.ofNat 10 (0x200 + i)) = .outBuf i) ∧
    (∀ a : Addr, placeOf a = .reserved ↔ (0x003 ≤ a.toNat ∧ a.toNat ≤ 0x0FF) ∨ (0x159 ≤ a.toNat ∧ a.toNat ≤ 0x1FF) ∨
      (0x259 ≤ a.toNat ∧ a.toNat ≤ 0x3FF))

/-- 60_exceptions.md R220: a legal command byte written while IDLE latches the command and makes the engine BUSY; the buffers and
OUT_LEN stay, and while BUSY every read of OUT_BUF or OUT_LEN is a draw. -/
def Obligations.LegalCommandIsIssued : Prop :=
  (∀ (s : State) (i : Instr), s.phase = .idle →
    ∃ t, hostWrite 0x000 (encodeByte i) s = .next t ∧ t.cmd = encodeByte i ∧ t.op = i ∧ t.phase = .busy ∧ t.status = 0x01#8 ∧
      t.mem = s.mem ∧ t.outLen = s.outLen ∧ t.draws = s.draws ∧ t.inputs = s.inputs ∧ t.trace = s.trace ∧ t.prog = s.prog ∧
      t.hostPc = s.hostPc ∧ t.burst = s.burst ∧ t.hostVars = s.hostVars) ∧
  (∀ (u : State) (a : Addr), u.phase = .busy → (placeOf a = .outLen ∨ ∃ i, placeOf a = .outBuf i) →
    hostRead a u = (Config.draw u.draws, { u with draws := u.draws + 1 }))

/-- 60_exceptions.md R221: a reserved byte written while IDLE is reported and nothing else changes. -/
def Obligations.ReservedCommandIsReported : Prop :=
  ∀ (s : State) (b : Byte), s.phase = .idle → (∀ i, b ≠ encodeByte i) →
    hostWrite 0x000 b s = .next { s with cmd := b, status := 0x0A#8 }

/-- 60_exceptions.md R222: a CMD write while BUSY is F1, whatever the byte. -/
def Obligations.CmdWriteWhileBusyFaults : Prop :=
  ∀ (s : State) (b : Byte), s.phase = .busy → hostWrite 0x000 b s = .fault (.hostProtocolFault (.cmdWhileBusy b))

/-- 60_exceptions.md R232 (BUSY) and the row of R244 for IDLE: an IN_BUF write while BUSY is F2; while IDLE it stores that byte,
sets its written flag, and changes nothing else. -/
def Obligations.InBufWriteStoresOrFaults : Prop :=
  ∀ (s : State) (i : Nat) (v : Byte), i ≤ 88 →
    (s.phase = .busy → hostWrite (BitVec.ofNat 10 (0x100 + i)) v s = .fault (.hostProtocolFault (.inBufWhileBusy i v))) ∧
    (s.phase = .idle → ∃ t, hostWrite (BitVec.ofNat 10 (0x100 + i)) v s = .next t ∧ inBufAt t i = some v ∧
      inWritten t i = true ∧ (∀ a, a ≠ 0x100 + i → Memory.read t.mem a = Memory.read s.mem a) ∧ { t with mem := s.mem } = s)

/-- 10_state.md R36, column host write: a write to STATUS, OUT_LEN, OUT_BUF or a reserved address is ignored, in both phases. -/
def Obligations.ReadOnlyWritesAreIgnored : Prop :=
  ∀ (s : State) (a : Addr) (v : Byte), placeOf a ≠ .cmd → (∀ i, placeOf a ≠ .inBuf i) → hostWrite a v s = .next s

/-- 20_memory.md R53: a read of a reserved address returns a draw, the next read another one; a write is ignored. -/
def Obligations.ReservedAddressesHoldNothing : Prop :=
  ∀ (s : State) (a : Addr) (v : Byte), placeOf a = .reserved →
    hostRead a s = (Config.draw s.draws, { s with draws := s.draws + 1 }) ∧ hostWrite a v s = .next s

/-- 60_exceptions.md R244, the HostRead rows: what a read returns at each place in each phase, and that it changes no engine
state. -/
def Obligations.HostReadReturns : Prop :=
  ∀ (s : State) (a : Addr),
    s.SameEngine (hostRead a s).2 ∧
    (placeOf a = .cmd → hostRead a s = (s.cmd, s)) ∧
    (placeOf a = .status → hostRead a s = (s.status, s)) ∧
    (placeOf a = .outLen → s.phase = .idle → ∀ v, s.outLen = .defined v → hostRead a s = (v, s)) ∧
    (∀ i v, placeOf a = .inBuf i → inBufAt s i = some v → hostRead a s = (v, s)) ∧
    (∀ i v, placeOf a = .outBuf i → s.phase = .idle → outBufAt s i = some v → hostRead a s = (v, s)) ∧
    ((placeOf a = .reserved ∨ (placeOf a = .outLen ∧ (s.phase = .busy ∨ s.outLen = .unspecified)) ∨
        (∃ i, placeOf a = .inBuf i ∧ inBufAt s i = none) ∨
        (∃ i, placeOf a = .outBuf i ∧ (s.phase = .busy ∨ outBufAt s i = none))) →
      hostRead a s = (Config.draw s.draws, { s with draws := s.draws + 1 }))

/-- 60_exceptions.md R233: an access of another width than 8 is refused with its address and width. -/
def Obligations.WideAccessIsRefused : Prop :=
  ∀ (s : State) (a : Addr) (width : Nat) (data : BitVec width), width ≠ 8 →
    hostAccess (.read a width) s = .refused (.wideAccess a.toNat width) ∧
    hostAccess (.write a width data) s = .refused (.wideAccess a.toNat width)

/-- 60_exceptions.md R230: a host access goes on exactly when it is 8 bits wide and writes neither CMD nor IN_BUF while BUSY. -/
def Obligations.SafeAccessesAreTheOnesThatGoOn : Prop :=
  ∀ (s : State) (x : Access), x.safe s = true ↔ ∃ t, hostAccess x s = .next t

/-! Steps, reset, the command lifecycle (60_exceptions.md, 70_reset_and_hazards.md) -/

/-- 70_reset_and_hazards.md R250: the state after reset, where nothing may be relied on but CMD and STATUS. -/
def Obligations.ResetStateIsAsListed : Prop :=
  State.reset.phase = .idle ∧ State.reset.cmd = 0x00#8 ∧ State.reset.status = 0x00#8 ∧ State.reset.outLen = .unspecified ∧
    (∀ i, inWritten State.reset i = false) ∧ (∀ i, outBufAt State.reset i = none) ∧
    (∀ a : Addr, placeOf a ≠ .cmd → placeOf a ≠ .status → visible a State.reset = none)

/-- 70_reset_and_hazards.md R251: a waiting reset is the next step whatever the engine does, also where a completion is due; the
engine's state is then the reset state, so a running command is gone and has written nothing. The clause about `op`, which R250 leaves
unspecified, is the model's choice (log 2). -/
def Obligations.ResetTakesPrecedence : Prop :=
  ∀ s : State, s.inputs.head? = some .reset → ∃ t, step s = .next t ∧ State.reset.SameEngine t

/-- 60_exceptions.md R223, R244: the step that the latency makes due runs the latched command, which is the one that CMD decodes to;
any other step is a reset or a host turn. The last clause says the same of a command placed by withFetchWord (log 9). -/
def Obligations.StepRunsTheLatchedCommand : Prop :=
  (∀ (s : State) (i : Instr), s.Inv → s.phase = .busy → s.countdown = 0 → s.inputs.head? ≠ some .reset →
    decodeCommand s.cmd = .ok i → step s = exec i s) ∧
  (∀ s : State, s.inputs.head? ≠ some .reset → (s.phase = .idle ∨ s.countdown ≠ 0) → step s = hostTurn s) ∧
  (∀ (s : State) (i : Instr), step (s.withFetchWord 8 (encodeByte i).toNat) = exec i (s.withFetchWord 8 (encodeByte i).toNat))

/-- 60_exceptions.md R244, 70_reset_and_hazards.md R262: unless a reset waits or the completion is due, the oldest queued access is
performed, and one host step of the latency passes. -/
def Obligations.QueuedAccessIsTheNextHostStep : Prop :=
  ∀ (s : State) (x : Access) (rest : List Input), s.inputs = .access x :: rest → (s.phase = .idle ∨ s.countdown ≠ 0) →
    step s = hostAccess x { s with inputs := rest, countdown := s.countdown - 1 }

/-- 70_reset_and_hazards.md R263: once BUSY, the completion step comes after at most `countdown` host steps, unless a reset comes
first or the run ends. -/
def Obligations.CompletionComesAfterFinitelyManySteps : Prop :=
  ∀ s : State, s.phase = .busy →
    ∃ n ≤ s.countdown,
      (∃ t, runSteps n s = .next t ∧ t.op = s.op ∧ t.phase = .busy ∧ step t = exec s.op t) ∨
      (∃ t, runSteps n s = .next t ∧ t.inputs.head? = some .reset) ∨
      (∀ t, runSteps n s ≠ .next t)

/-- 70_reset_and_hazards.md R262: a host that polls STATUS ends in the same engine state whatever LATENCY was. -/
def Obligations.PollingResultDoesNotDependOnLatency : Prop :=
  ∀ s t : State, s.phase = .busy → s.inputs = List.replicate s.countdown (.access (.read 0x001 8)) → exec s.op s = .next t →
    ∃ u, runSteps (s.countdown + 1) s = .next u ∧ t.SameEngine u

/-- 10_state.md R26: BUSY is 1 exactly when the phase is BUSY; the issue of a legal command sets it, a completion and a reset clear
it, and no other step changes it. -/
def Obligations.BusyChangesOnlyAtIssueCompletionAndReset : Prop :=
  (∀ s t : State, s.Inv → step s = .next t →
    (statusBusy t.status = true ↔ t.phase = .busy) ∧
    (statusBusy s.status = false → statusBusy t.status = true →
      ∃ i, t.trace = .wrote 0x000 (encodeByte i) :: s.trace ∧ t.op = i ∧ t.cmd = encodeByte i) ∧
    (statusBusy s.status = true → statusBusy t.status = false → nextEvent s = .complete ∨ nextEvent s = .reset) ∧
    (nextEvent s = .complete ∨ nextEvent s = .reset → statusBusy t.status = false)) ∧
  (∀ (s : State) (i : Instr), s.phase = .idle → ∃ t, hostWrite 0x000 (encodeByte i) s = .next t ∧ statusBusy t.status = true)

/-- 10_state.md R36: who writes what. OUT_LEN changes only at a reset or an encode completion, OUT_BUF only at a reset or a
completion, IN_BUF only at a reset or a host step while IDLE, CMD only at a reset or a host step. -/
def Obligations.EachRegisterHasItsOneWriter : Prop :=
  ∀ s t : State, step s = .next t →
    (t.outLen ≠ s.outLen → nextEvent s = .reset ∨ (nextEvent s = .complete ∧ isEncode s.op = true)) ∧
    ((∃ i, outBufAt t i ≠ outBufAt s i) → nextEvent s = .reset ∨ nextEvent s = .complete) ∧
    ((∃ i ≤ 88, inBufAt t i ≠ inBufAt s i) → nextEvent s = .reset ∨ (nextEvent s = .host ∧ s.phase = .idle)) ∧
    (t.cmd ≠ s.cmd → nextEvent s = .reset ∨ nextEvent s = .host)

/-- 10_state.md R35: the flags BUSY, DONE, ERR, ILLEGAL that each event leaves. -/
def Obligations.FlagsPerEvent : Prop :=
  (∀ s : State, flagsOf (resetEvent s).status = (false, false, false, false)) ∧
  (∀ (s : State) (i : Instr), s.phase = .idle →
    ∃ t, hostWrite 0x000 (encodeByte i) s = .next t ∧ flagsOf t.status = (true, false, false, false)) ∧
  (∀ (s : State) (b : Byte), s.phase = .idle → (∀ i, b ≠ encodeByte i) →
    ∃ t, hostWrite 0x000 b s = .next t ∧ flagsOf t.status = (false, true, false, true)) ∧
  (∀ (s t : State) (i : Instr), isEncode i = true → exec i s = .next t → flagsOf t.status = (false, true, false, false)) ∧
  (∀ (s t : State) (i : Instr), isEncode i = false → exec i s = .next t →
    flagsOf t.status = (false, true, false, false) ∨ flagsOf t.status = (false, true, true, false))

/-- The invariant holds after reset (70_reset_and_hazards.md R250). -/
def Obligations.ResetSatisfiesInvariant : Prop := State.reset.Inv

/-- Every step keeps the invariant: canonical memory, STATUS.BUSY equal to the phase (10_state.md R26), the five STATUS values with
the CMD each goes with (60_exceptions.md R225), OUT_LEN a legal length (10_state.md R30). -/
def Obligations.StepKeepsInvariant : Prop := ∀ s t : State, s.Inv → step s = .next t → t.Inv

/-- 60_exceptions.md R242: a step of one instance changes no state of another. -/
def Obligations.InstancesDoNotInteract : Prop :=
  ∀ (sys sys' : System) (k j : Nat), System.stepAt k sys = .next sys' → j ≠ k → sys'[j]? = sys[j]?

/-! The four commands (42_encode.md, 43_decode.md) -/

/-- ENC32, ENC64, DEC32 and DEC64 complete whenever every byte they read is written: the engine is IDLE and DONE, an encode without
ERR, and only the first bytes of OUT_BUF that 20_memory.md R63 names, and an encode's OUT_LEN, may have changed. -/
def Obligations.EveryCommandCompletes : Prop :=
  ∀ (i : Instr) (s : State), ReadSetWritten i s →
    ∃ t, exec i s = .next t ∧ t.phase = .idle ∧ (t.status = 0x02#8 ∨ (t.status = 0x06#8 ∧ isEncode i = false)) ∧
      (isEncode i = false → t.outLen = s.outLen) ∧ SameMemoryBut (writeWindow i) s t ∧ s.SameCommandAndHost t

/-- 60_exceptions.md R231: a command stops exactly on an unwritten byte of its read set, with the lowest such index; no command
ends in any other fault or in a refusal. -/
def Obligations.UninitialisedInputIsTheLowestIndex : Prop :=
  (∀ (i : Instr) (s : State) (r : Refusal), exec i s ≠ .refused r) ∧
  (∀ (i : Instr) (s : State) (f : Fault), isEncode i = true → (exec i s = .fault f ↔
    ∃ k < (commandSize i).bytes, f = .uninitialisedInput k ∧ inWritten s k = false ∧ ∀ j < k, inWritten s j = true)) ∧
  (∀ (i : Instr) (s : State) (f : Fault), isEncode i = false → (exec i s = .fault f ↔
    ∃ k < (commandSize i).encoded, f = .uninitialisedInput k ∧ inWritten s k = false ∧ ScanPasses s k))

/-- 42_encode.md R175, R176, with the text of R174, which the spec marks as derived, its own inference: ENC32 and ENC64 write exactly the text '1'^z ++
b58(v) of the binary operand and its terminator, leave the rest of the E bytes unspecified and every other byte unchanged, and
report the length and STATUS = 0x02. -/
def Obligations.EncodeWritesCanonicalText : Prop :=
  ∀ (i : Instr) (s : State) (b : List Byte), isEncode i = true → b.length = (commandSize i).bytes → InBufHolds s b →
    ∃ t, exec i s = .next t ∧ OutBufHolds t (canonicalText b ++ [0x00#8]) ∧
      (∀ k, (canonicalText b).length < k → k < (commandSize i).encoded → outBufAt t k = none) ∧
      SameMemoryBut (commandSize i).encoded s t ∧ t.outLen = .defined (BitVec.ofNat 8 (canonicalText b).length) ∧
      t.status = 0x02#8 ∧ t.phase = .idle ∧ s.SameCommandAndHost t

/-- 42_encode.md R177 (marked as derived there): the text's length is N to MAXLEN, the least for the all-zero operand, the
greatest for the all-0xFF one. -/
def Obligations.EncodeLengthBounds : Prop :=
  ∀ sz : Size,
    (∀ b : List Byte, b.length = sz.bytes → sz.bytes ≤ (encodeText sz b).length ∧ (encodeText sz b).length ≤ sz.maxLen) ∧
    (encodeText sz (List.replicate sz.bytes 0x00#8)).length = sz.bytes ∧
    (encodeText sz (List.replicate sz.bytes 0xFF#8)).length = sz.maxLen

/-- 42_encode.md R173 (marked as derived there): the digits to drop never underflow. -/
def Obligations.EncodeSkipNeverUnderflows : Prop :=
  ∀ (sz : Size) (b : List Byte), b.length = sz.bytes → lzdZeros b ≤ lzdZeros (encodeRaw sz b)

/-- 42_encode.md R178 (marked as derived there): after an encode every byte of the text is an ALPHABET character, and none is '0',
'O', 'I', 'l' or 0x00. -/
def Obligations.EncodeAlphabetClosure : Prop :=
  ∀ (i : Instr) (s : State) (b : List Byte), isEncode i = true → b.length = (commandSize i).bytes → InBufHolds s b →
    ∃ t len, exec i s = .next t ∧ t.outLen = .defined len ∧
      ∀ k < len.toNat, ∃ c ∈ alphabetTable, outBufAt t k = some c ∧ c ∉ [0x30#8, 0x4F#8, 0x49#8, 0x6C#8, 0x00#8]

/-- 42_encode.md R179 (marked as derived there): the text has exactly as many leading '1' characters as the operand has leading
zero bytes. -/
def Obligations.EncodeLeadingOnes : Prop :=
  ∀ (sz : Size) (b : List Byte), b.length = sz.bytes → lzdOnes (encodeText sz b) = lzdZeros b

/-- 43_decode.md R196, and R199 (marked as derived there): a terminated text of alphabet characters decodes to the operand whose
canonical text it is, and fails if it is no operand's canonical text; in both cases OUT_LEN, the rest of OUT_BUF and IN_BUF are
unchanged. -/
def Obligations.DecodeAcceptsExactlyCanonicalTexts : Prop :=
  ∀ (i : Instr) (s : State) (x : List Byte), isEncode i = false → (∀ c ∈ x, isTextChar c = true) →
    x.length < (commandSize i).encoded → InBufHolds s (x ++ [0x00#8]) →
    (∀ b : List Byte, b.length = (commandSize i).bytes → x = canonicalText b →
      ∃ t, exec i s = .next t ∧ OutBufHolds t b ∧ t.status = 0x02#8 ∧ t.phase = .idle ∧ t.outLen = s.outLen ∧
        SameMemoryBut (commandSize i).bytes s t ∧ s.SameCommandAndHost t) ∧
    ((∀ b : List Byte, b.length = (commandSize i).bytes → x ≠ canonicalText b) →
      ∃ t, exec i s = .next t ∧ (∀ k < (commandSize i).bytes, outBufAt t k = none) ∧ t.status = 0x06#8 ∧ t.phase = .idle ∧
        t.outLen = s.outLen ∧ SameMemoryBut (commandSize i).bytes s t ∧ s.SameCommandAndHost t)

/-- 43_decode.md R190: an invalid character before any terminator, or no terminator in `IN_BUF[0..E-1]`, fails, with the effects
of a failed decode and nothing read after it. -/
def Obligations.DecodeRejectsInvalidAndTooLong : Prop :=
  ∀ (i : Instr) (s : State), isEncode i = false →
    ((∃ k < (commandSize i).encoded, ScanPasses s k ∧ ∃ c, inBufAt s k = some c ∧ c ≠ 0x00#8 ∧ validChar c = false) ∨
      ScanPasses s (commandSize i).encoded) →
    ∃ t, exec i s = .next t ∧ (∀ k < (commandSize i).bytes, outBufAt t k = none) ∧ t.status = 0x06#8 ∧ t.phase = .idle ∧
      t.outLen = s.outLen ∧ SameMemoryBut (commandSize i).bytes s t ∧ s.SameCommandAndHost t

/-- 43_decode.md R202 (marked as derived there): encoding an operand, copying the text and its terminator to IN_BUF, and decoding
gives the operand back. -/
def Obligations.RoundTripThroughTheMachine : Prop :=
  ∀ e d : Instr, (e, d) ∈ [(Instr.enc32, Instr.dec32), (Instr.enc64, Instr.dec64)] →
    ∀ (s : State) (b : List Byte), b.length = (commandSize e).bytes → InBufHolds s b →
      ∃ t len, exec e s = .next t ∧ t.outLen = .defined len ∧
        ∀ u : State, (∀ k ≤ len.toNat, inBufAt u k = outBufAt t k) →
          ∃ w, exec d u = .next w ∧ OutBufHolds w b ∧ w.status = 0x02#8

/-- 43_decode.md R203 (marked as derived there): two texts that decode to the same operand are the same text, and it is the one an
encode writes. -/
def Obligations.DecodedTextIsUnique : Prop :=
  ∀ (sz : Size) (x b : List Byte), (∀ c ∈ x, isTextChar c = true) → x.length < sz.encoded →
    (decodeText sz x = some b ↔ b.length = sz.bytes ∧ x = encodeText sz b)

/-- 20_memory.md R62 (marked as derived there): bytes outside a command's read set do not affect its result, nor whether it stops.
-/
def Obligations.ResultDependsOnlyOnReadSet : Prop :=
  ∀ (i : Instr) (s u : State), AgreeOnReadSet i s u →
    (∀ f, exec i s = .fault f → exec i u = .fault f) ∧
    (∀ t, exec i s = .next t → ∃ w, exec i u = .next w ∧ w.status = t.status ∧ (isEncode i = true → w.outLen = t.outLen) ∧
      ∀ k < writeWindow i, outBufAt w k = outBufAt t k)

/-! The sub-blocks (40_components.md, 41_radix_tables.md) -/

/-- 40_components.md R101 (marked as derived there): INVERSE undoes ALPHABET, is 255 outside it, and has the closed form of the
table of ranges. -/
def Obligations.InverseTableIsAlphabetInverse : Prop :=
  (∀ d : Byte, d.toNat ≤ 57 → inverse (alphabet d) = d) ∧
  (∀ c : Byte, inverse c =
    if 0x31 ≤ c.toNat ∧ c.toNat ≤ 0x39 then c - 0x31#8
    else if 0x41 ≤ c.toNat ∧ c.toNat ≤ 0x48 then c - 0x38#8
    else if 0x4A ≤ c.toNat ∧ c.toNat ≤ 0x4E then c - 0x39#8
    else if 0x50 ≤ c.toNat ∧ c.toNat ≤ 0x5A then c - 0x3A#8
    else if 0x61 ≤ c.toNat ∧ c.toNat ≤ 0x6B then c - 0x40#8
    else if 0x6D ≤ c.toNat ∧ c.toNat ≤ 0x7A then c - 0x41#8
    else 255#8)

/-- 41_radix_tables.md R150 (marked as derived there): row i of enc_table is the base-58^5 expansion of 2^(32·(L-1-i)), in
canonical digits. -/
def Obligations.EncTableRowsAreCanonical : Prop :=
  ∀ sz : Size, (encTable sz).length = sz.limbs ∧
    ∀ i < sz.limbs, ∀ row, (encTable sz)[i]? = some row → row.length = sz.inters - 1 ∧ (∀ x ∈ row, x.toNat < 58 ^ 5) ∧
      placeValue (58 ^ 5) (row.map BitVec.toNat) = 2 ^ (32 * (sz.limbs - 1 - i))

/-- 41_radix_tables.md R153 (marked as derived there): row i of dec_table is the base-2^32 expansion of 58^(5·(C-1-i)). -/
def Obligations.DecTableRowsAreExpansions : Prop :=
  ∀ sz : Size, (decTable sz).length = sz.inters ∧
    ∀ i < sz.inters, ∀ row, (decTable sz)[i]? = some row → row.length = sz.limbs ∧
      placeValue (2 ^ 32) (row.map BitVec.toNat) = 58 ^ (5 * (sz.inters - 1 - i))

/-- 40_components.md R105, R106, R108: PACK has the value of its bytes and loses none of them; UNPACK has the value of its limbs. -/
def Obligations.PackAndUnpackKeepValues : Prop :=
  (∀ (n : Nat) (b : List Byte), b.length = 4 * n → (pack b).length = n ∧ val32Limbs (pack b) = intBe b) ∧
  (∀ (n : Nat) (b c : List Byte), b.length = 4 * n → c.length = 4 * n → pack b = pack c → b = c) ∧
  (∀ bin : List Acc, (∀ x ∈ bin, x.toNat < 2 ^ 32) → (unpack bin).length = 4 * bin.length ∧ intBe (unpack bin) = val32 bin)

/-- 40_components.md R112: the mini-reduction carries acc[16] into acc[15], keeps the value and changes no other accumulator. -/
def Obligations.MiniReduceKeepsValue : Prop :=
  ∀ (acc : List Acc) (x y : Acc), acc.length = 18 → acc[15]? = some x → acc[16]? = some y →
    x.toNat + y.toNat / 58 ^ 5 < 2 ^ 64 →
    val58 (miniReduce acc) = val58 acc ∧ (miniReduce acc).length = 18 ∧
      (∃ x' y', (miniReduce acc)[15]? = some x' ∧ x'.toNat = x.toNat + y.toNat / 58 ^ 5 ∧
        (miniReduce acc)[16]? = some y' ∧ y'.toNat = y.toNat % 58 ^ 5) ∧
      ∀ j, j ≠ 15 → j ≠ 16 → (miniReduce acc)[j]? = acc[j]?

/-- 41_radix_tables.md R156 (marked as derived there): the exact upper bounds of the encode accumulators at the end of the
multiply-accumulate, all below 2^64, and of acc[15] and acc[16] before the mini-reduction. -/
def Obligations.EncodeAccumulatorBounds : Prop :=
  (∀ limb : List Limb, limb.length = 8 → Fits (encTransform .n32 limb)
    [0, 2206475023296825, 332007654872611020, 4653033169286404860, 3885447055389499005, 4403039173337236275,
     5288405990681333445, 9797816686278551970, 8451923070174936255]) ∧
  (∀ limb : List Limb, limb.length = 16 → Fits (encTransform .n64 limb)
    [0, 11300058953145, 641915259176056185, 2772157095477727695, 4114538497780889865, 3202276479271385730,
     7444030967732337990, 10278224098372643235, 11575131263129673585, 8153662970498932410, 12982971561896261670,
     10935218553929747625, 15194645381110679175, 12883682346216453930, 15515319652378903290, 14803859269134104509,
     9797816686934908737, 16803551296732646175]) ∧
  (∀ limb : List Limb, limb.length = 8 → ∀ x y,
    (encBatch limb (encTable64.take 8) (List.replicate 18 0))[15]? = some x →
    (encBatch limb (encTable64.take 8) (List.replicate 18 0))[16]? = some y →
    x.toNat ≤ 9515453252698788270 ∧ y.toNat ≤ 16903800910049288865)

/-- 40_components.md R111, and R121 (marked as derived there): the encode transform computes the operand's value exactly, with no
accumulator wrapping. -/
def Obligations.EncodeTransformIsExact : Prop :=
  ∀ (sz : Size) (b : List Byte), b.length = sz.bytes → val58 (encTransform sz (pack b)) = intBe b

/-- 40_components.md R114 (marked as derived there): after NORM58 every accumulator is below 58^5 and acc[0] is v / 58^(5·(C-1)),
so the accumulators are the base-58^5 digits of the operand. -/
def Obligations.NormalizedAccumulatorsAreDigits : Prop :=
  ∀ (sz : Size) (b : List Byte), b.length = sz.bytes →
    let acc := norm58 (encTransform sz (pack b))
    acc.length = sz.inters ∧ val58 acc = intBe b ∧ (∀ x ∈ acc, x.toNat < 58 ^ 5) ∧
      ∃ x, acc.head? = some x ∧ x.toNat = intBe b / 58 ^ (5 * (sz.inters - 1)) ∧
        x.toNat ≤ if sz = .n32 then 3361701 else 17217

/-- 40_components.md R118 (marked as derived there): the raw digits are at most 57, have the operand's value, and the first one
(two, for N = 64) is zero. -/
def Obligations.RawDigitsOfTheOperand : Prop :=
  ∀ (sz : Size) (b : List Byte), b.length = sz.bytes →
    (encodeRaw sz b).length = sz.raw ∧ (∀ d ∈ encodeRaw sz b, d.toNat ≤ 57) ∧ valRaw (encodeRaw sz b) = intBe b ∧
      (encodeRaw sz b)[0]? = some 0x00#8 ∧ (sz = .n64 → (encodeRaw sz b)[1]? = some 0x00#8)

/-- 40_components.md R119 (marked as derived there): the recomposed intermediates of a text have its value, are below 58^5, and
the first is below 58^4 (58^3, for N = 64). -/
def Obligations.RecomposedIntermediates : Prop :=
  ∀ (sz : Size) (x : List Byte), (∀ c ∈ x, isTextChar c = true) → x.length < sz.encoded →
    let inter := recompose (decodeRaw sz x)
    inter.length = sz.inters ∧ val58 inter = textValue x ∧ (∀ a ∈ inter, a.toNat ≤ 58 ^ 5 - 1) ∧
      ∀ a, inter.head? = some a → a.toNat ≤ if sz = .n32 then 58 ^ 4 - 1 else 58 ^ 3 - 1

/-- 41_radix_tables.md R157 (marked as derived there): the exact upper bounds of the decode accumulators, all below 2^64. -/
def Obligations.DecodeAccumulatorBounds : Prop :=
  (∀ inter : List Acc, inter.length = 9 → (∀ a ∈ inter, a.toNat ≤ 58 ^ 5 - 1) → (∀ a, inter.head? = some a → a.toNat ≤ 58 ^ 4 - 1) →
    Fits (decTransform .n32 inter)
      [14451164115, 29998699315519185, 820671900048833475, 3991120274865088122, 4455592240951444755, 6901160305414002066,
       5151081256043841603, 8769783620215767039]) ∧
  (∀ inter : List Acc, inter.length = 18 → (∀ a ∈ inter, a.toNat ≤ 58 ^ 5 - 1) → (∀ a, inter.head? = some a → a.toNat ≤ 58 ^ 3 - 1) →
    Fits (decTransform .n64 inter)
      [48670048728, 1797160830144150, 1242820247893089774, 3690532104604470366, 3233947555027573200, 8127829674796109370,
       8006957926639913601, 12697580126659347174, 12996702967713925974, 13435304303843980401, 11538901936033199616,
       15269377648689102396, 15906911434492878486, 17385290212731875541, 9946920139805653059, 8769783620215767039])

/-- 43_decode.md R193, 40_components.md R116 (both marked as derived there): after NORM32 the limbs have the text's value, and all
but the first are below 2^32. -/
def Obligations.DecodeLimbsHaveTheTextsValue : Prop :=
  ∀ (sz : Size) (x : List Byte), (∀ c ∈ x, isTextChar c = true) → x.length < sz.encoded →
    (decodeLimbs sz x).length = sz.limbs ∧ val32 (decodeLimbs sz x) = textValue x ∧
      (∀ a ∈ (decodeLimbs sz x).tail, a.toNat < 2 ^ 32) ∧
      ∃ a, (decodeLimbs sz x).head? = some a ∧ a.toNat = textValue x / 2 ^ (32 * (sz.limbs - 1))

/-- 43_decode.md R194: the overflow check fails exactly when the text's value exceeds 256^N - 1. -/
def Obligations.OverflowCheckIsExact : Prop :=
  ∀ (sz : Size) (x : List Byte), (∀ c ∈ x, isTextChar c = true) → x.length < sz.encoded →
    ((decodeLimbs sz x).getD 0 0 > 0xFFFFFFFF#64 ↔ textValue x > 256 ^ sz.bytes - 1)

/-! The host agent (30_encoding.md R89, R90) -/

/-- 30_encoding.md R90, PUTB: an idle engine's IN_BUF holds the bytes after as many steps, and no other byte of memory changes. -/
def Obligations.PutbStoresTheBytes : Prop :=
  ∀ (s : State) (off : Nat) (h : List Byte), off + h.length ≤ 89 → s.phase = .idle → s.inputs = [] →
    ∃ t, runSteps h.length (s.withProgram [.putb off h]) = .next t ∧ t.phase = .idle ∧
      (∀ k < h.length, inBufAt t (off + k) = h[k]?) ∧
      ∀ a, ¬ (0x100 + off ≤ a ∧ a < 0x100 + off + h.length) → Memory.read t.mem a = Memory.read s.mem a

/-- 30_encoding.md R90, WAIT: one round reads STATUS into `r` and goes back to its start exactly while BUSY is 1. -/
def Obligations.WaitPollsStatusUntilNotBusy : Prop :=
  ∀ s : State, s.inputs = [] → (s.phase = .idle ∨ 3 ≤ s.countdown) →
    ∃ t, runSteps 3 (s.withProgram [.wait]) = .next t ∧ hostVar .r t = s.status.toNat ∧
      t.hostPc = (if statusBusy s.status then 0 else 3) ∧ s.SameEngine t
end

