-- ==== Sys2Proof/Laws/State.lean ====
section
/-! SUPPORT. One lemma per field per update of the state: what each named update leaves in each field. -/

namespace Sys2Proof.Machine

@[simp] theorem issueCommand_phase (i : Instr) (b : Byte) (s : State) : (issueCommand i b s).phase = .busy := rfl
@[simp] theorem issueCommand_op (i : Instr) (b : Byte) (s : State) : (issueCommand i b s).op = i := rfl
@[simp] theorem issueCommand_cmd (i : Instr) (b : Byte) (s : State) : (issueCommand i b s).cmd = b := rfl
@[simp] theorem issueCommand_status (i : Instr) (b : Byte) (s : State) : (issueCommand i b s).status = statusIssued := rfl
@[simp] theorem issueCommand_outLen (i : Instr) (b : Byte) (s : State) : (issueCommand i b s).outLen = s.outLen := rfl
@[simp] theorem issueCommand_mem (i : Instr) (b : Byte) (s : State) : (issueCommand i b s).mem = s.mem := rfl
@[simp] theorem issueCommand_countdown (i : Instr) (b : Byte) (s : State) : (issueCommand i b s).countdown = Config.latency i s.issues := rfl
@[simp] theorem issueCommand_issues (i : Instr) (b : Byte) (s : State) : (issueCommand i b s).issues = s.issues + 1 := rfl
@[simp] theorem issueCommand_draws (i : Instr) (b : Byte) (s : State) : (issueCommand i b s).draws = s.draws := rfl
@[simp] theorem issueCommand_inputs (i : Instr) (b : Byte) (s : State) : (issueCommand i b s).inputs = s.inputs := rfl
@[simp] theorem issueCommand_trace (i : Instr) (b : Byte) (s : State) : (issueCommand i b s).trace = s.trace := rfl
@[simp] theorem issueCommand_prog (i : Instr) (b : Byte) (s : State) : (issueCommand i b s).prog = s.prog := rfl
@[simp] theorem issueCommand_hostPc (i : Instr) (b : Byte) (s : State) : (issueCommand i b s).hostPc = s.hostPc := rfl
@[simp] theorem issueCommand_burst (i : Instr) (b : Byte) (s : State) : (issueCommand i b s).burst = s.burst := rfl
@[simp] theorem issueCommand_hostVars (i : Instr) (b : Byte) (s : State) : (issueCommand i b s).hostVars = s.hostVars := rfl

@[simp] theorem reportIllegal_phase (b : Byte) (s : State) : (reportIllegal b s).phase = s.phase := rfl
@[simp] theorem reportIllegal_op (b : Byte) (s : State) : (reportIllegal b s).op = s.op := rfl
@[simp] theorem reportIllegal_cmd (b : Byte) (s : State) : (reportIllegal b s).cmd = b := rfl
@[simp] theorem reportIllegal_status (b : Byte) (s : State) : (reportIllegal b s).status = statusIllegalCommand := rfl
@[simp] theorem reportIllegal_outLen (b : Byte) (s : State) : (reportIllegal b s).outLen = s.outLen := rfl
@[simp] theorem reportIllegal_mem (b : Byte) (s : State) : (reportIllegal b s).mem = s.mem := rfl
@[simp] theorem reportIllegal_countdown (b : Byte) (s : State) : (reportIllegal b s).countdown = s.countdown := rfl
@[simp] theorem reportIllegal_issues (b : Byte) (s : State) : (reportIllegal b s).issues = s.issues := rfl
@[simp] theorem reportIllegal_draws (b : Byte) (s : State) : (reportIllegal b s).draws = s.draws := rfl
@[simp] theorem reportIllegal_inputs (b : Byte) (s : State) : (reportIllegal b s).inputs = s.inputs := rfl
@[simp] theorem reportIllegal_trace (b : Byte) (s : State) : (reportIllegal b s).trace = s.trace := rfl
@[simp] theorem reportIllegal_prog (b : Byte) (s : State) : (reportIllegal b s).prog = s.prog := rfl
@[simp] theorem reportIllegal_hostPc (b : Byte) (s : State) : (reportIllegal b s).hostPc = s.hostPc := rfl
@[simp] theorem reportIllegal_burst (b : Byte) (s : State) : (reportIllegal b s).burst = s.burst := rfl
@[simp] theorem reportIllegal_hostVars (b : Byte) (s : State) : (reportIllegal b s).hostVars = s.hostVars := rfl

@[simp] theorem complete_phase (v : Byte) (s : State) : (complete v s).phase = .idle := rfl
@[simp] theorem complete_op (v : Byte) (s : State) : (complete v s).op = s.op := rfl
@[simp] theorem complete_cmd (v : Byte) (s : State) : (complete v s).cmd = s.cmd := rfl
@[simp] theorem complete_status (v : Byte) (s : State) : (complete v s).status = v := rfl
@[simp] theorem complete_outLen (v : Byte) (s : State) : (complete v s).outLen = s.outLen := rfl
@[simp] theorem complete_mem (v : Byte) (s : State) : (complete v s).mem = s.mem := rfl
@[simp] theorem complete_countdown (v : Byte) (s : State) : (complete v s).countdown = s.countdown := rfl
@[simp] theorem complete_issues (v : Byte) (s : State) : (complete v s).issues = s.issues := rfl
@[simp] theorem complete_draws (v : Byte) (s : State) : (complete v s).draws = s.draws := rfl
@[simp] theorem complete_inputs (v : Byte) (s : State) : (complete v s).inputs = s.inputs := rfl
@[simp] theorem complete_trace (v : Byte) (s : State) : (complete v s).trace = s.trace := rfl
@[simp] theorem complete_prog (v : Byte) (s : State) : (complete v s).prog = s.prog := rfl
@[simp] theorem complete_hostPc (v : Byte) (s : State) : (complete v s).hostPc = s.hostPc := rfl
@[simp] theorem complete_burst (v : Byte) (s : State) : (complete v s).burst = s.burst := rfl
@[simp] theorem complete_hostVars (v : Byte) (s : State) : (complete v s).hostVars = s.hostVars := rfl

@[simp] theorem resetEngine_phase (s : State) : (resetEngine s).phase = .idle := rfl
@[simp] theorem resetEngine_op (s : State) : (resetEngine s).op = .enc32 := rfl
@[simp] theorem resetEngine_cmd (s : State) : (resetEngine s).cmd = 0x00#8 := rfl
@[simp] theorem resetEngine_status (s : State) : (resetEngine s).status = 0x00#8 := rfl
@[simp] theorem resetEngine_outLen (s : State) : (resetEngine s).outLen = .unspecified := rfl
@[simp] theorem resetEngine_mem (s : State) : (resetEngine s).mem = [] := rfl
@[simp] theorem resetEngine_countdown (s : State) : (resetEngine s).countdown = 0 := rfl
@[simp] theorem resetEngine_issues (s : State) : (resetEngine s).issues = s.issues := rfl
@[simp] theorem resetEngine_draws (s : State) : (resetEngine s).draws = s.draws := rfl
@[simp] theorem resetEngine_inputs (s : State) : (resetEngine s).inputs = s.inputs := rfl
@[simp] theorem resetEngine_trace (s : State) : (resetEngine s).trace = s.trace := rfl
@[simp] theorem resetEngine_prog (s : State) : (resetEngine s).prog = s.prog := rfl
@[simp] theorem resetEngine_hostPc (s : State) : (resetEngine s).hostPc = s.hostPc := rfl
@[simp] theorem resetEngine_burst (s : State) : (resetEngine s).burst = s.burst := rfl
@[simp] theorem resetEngine_hostVars (s : State) : (resetEngine s).hostVars = s.hostVars := rfl

@[simp] theorem tick_phase (s : State) : (tick s).phase = s.phase := rfl
@[simp] theorem tick_op (s : State) : (tick s).op = s.op := rfl
@[simp] theorem tick_cmd (s : State) : (tick s).cmd = s.cmd := rfl
@[simp] theorem tick_status (s : State) : (tick s).status = s.status := rfl
@[simp] theorem tick_outLen (s : State) : (tick s).outLen = s.outLen := rfl
@[simp] theorem tick_mem (s : State) : (tick s).mem = s.mem := rfl
@[simp] theorem tick_countdown (s : State) : (tick s).countdown = s.countdown - 1 := rfl
@[simp] theorem tick_issues (s : State) : (tick s).issues = s.issues := rfl
@[simp] theorem tick_draws (s : State) : (tick s).draws = s.draws := rfl
@[simp] theorem tick_inputs (s : State) : (tick s).inputs = s.inputs := rfl
@[simp] theorem tick_trace (s : State) : (tick s).trace = s.trace := rfl
@[simp] theorem tick_prog (s : State) : (tick s).prog = s.prog := rfl
@[simp] theorem tick_hostPc (s : State) : (tick s).hostPc = s.hostPc := rfl
@[simp] theorem tick_burst (s : State) : (tick s).burst = s.burst := rfl
@[simp] theorem tick_hostVars (s : State) : (tick s).hostVars = s.hostVars := rfl

@[simp] theorem setHostVar_phase (x : HostVar) (z : Int) (s : State) : (setHostVar x z s).phase = s.phase := rfl
@[simp] theorem setHostVar_op (x : HostVar) (z : Int) (s : State) : (setHostVar x z s).op = s.op := rfl
@[simp] theorem setHostVar_cmd (x : HostVar) (z : Int) (s : State) : (setHostVar x z s).cmd = s.cmd := rfl
@[simp] theorem setHostVar_status (x : HostVar) (z : Int) (s : State) : (setHostVar x z s).status = s.status := rfl
@[simp] theorem setHostVar_outLen (x : HostVar) (z : Int) (s : State) : (setHostVar x z s).outLen = s.outLen := rfl
@[simp] theorem setHostVar_mem (x : HostVar) (z : Int) (s : State) : (setHostVar x z s).mem = s.mem := rfl
@[simp] theorem setHostVar_countdown (x : HostVar) (z : Int) (s : State) : (setHostVar x z s).countdown = s.countdown := rfl
@[simp] theorem setHostVar_issues (x : HostVar) (z : Int) (s : State) : (setHostVar x z s).issues = s.issues := rfl
@[simp] theorem setHostVar_draws (x : HostVar) (z : Int) (s : State) : (setHostVar x z s).draws = s.draws := rfl
@[simp] theorem setHostVar_inputs (x : HostVar) (z : Int) (s : State) : (setHostVar x z s).inputs = s.inputs := rfl
@[simp] theorem setHostVar_trace (x : HostVar) (z : Int) (s : State) : (setHostVar x z s).trace = s.trace := rfl
@[simp] theorem setHostVar_prog (x : HostVar) (z : Int) (s : State) : (setHostVar x z s).prog = s.prog := rfl
@[simp] theorem setHostVar_hostPc (x : HostVar) (z : Int) (s : State) : (setHostVar x z s).hostPc = s.hostPc := rfl
@[simp] theorem setHostVar_burst (x : HostVar) (z : Int) (s : State) : (setHostVar x z s).burst = s.burst := rfl
@[simp] theorem setHostVar_hostVars (x : HostVar) (z : Int) (s : State) : (setHostVar x z s).hostVars = setVar x z s.hostVars := rfl

@[simp] theorem takeDraw_phase (s : State) : (takeDraw s).2.phase = s.phase := rfl
@[simp] theorem takeDraw_op (s : State) : (takeDraw s).2.op = s.op := rfl
@[simp] theorem takeDraw_cmd (s : State) : (takeDraw s).2.cmd = s.cmd := rfl
@[simp] theorem takeDraw_status (s : State) : (takeDraw s).2.status = s.status := rfl
@[simp] theorem takeDraw_outLen (s : State) : (takeDraw s).2.outLen = s.outLen := rfl
@[simp] theorem takeDraw_mem (s : State) : (takeDraw s).2.mem = s.mem := rfl
@[simp] theorem takeDraw_countdown (s : State) : (takeDraw s).2.countdown = s.countdown := rfl
@[simp] theorem takeDraw_issues (s : State) : (takeDraw s).2.issues = s.issues := rfl
@[simp] theorem takeDraw_draws (s : State) : (takeDraw s).2.draws = s.draws + 1 := rfl
@[simp] theorem takeDraw_inputs (s : State) : (takeDraw s).2.inputs = s.inputs := rfl
@[simp] theorem takeDraw_trace (s : State) : (takeDraw s).2.trace = s.trace := rfl
@[simp] theorem takeDraw_prog (s : State) : (takeDraw s).2.prog = s.prog := rfl
@[simp] theorem takeDraw_hostPc (s : State) : (takeDraw s).2.hostPc = s.hostPc := rfl
@[simp] theorem takeDraw_burst (s : State) : (takeDraw s).2.burst = s.burst := rfl
@[simp] theorem takeDraw_hostVars (s : State) : (takeDraw s).2.hostVars = s.hostVars := rfl

@[simp] theorem finishEncode_phase (sz : Size) (t : List Byte) (s : State) : (finishEncode sz t s).phase = .idle := rfl
@[simp] theorem finishEncode_op (sz : Size) (t : List Byte) (s : State) : (finishEncode sz t s).op = s.op := rfl
@[simp] theorem finishEncode_cmd (sz : Size) (t : List Byte) (s : State) : (finishEncode sz t s).cmd = s.cmd := rfl
@[simp] theorem finishEncode_status (sz : Size) (t : List Byte) (s : State) : (finishEncode sz t s).status = statusSuccess := rfl
@[simp] theorem finishEncode_outLen (sz : Size) (t : List Byte) (s : State) : (finishEncode sz t s).outLen = .defined (BitVec.ofNat 8 t.length) := rfl
@[simp] theorem finishEncode_mem (sz : Size) (t : List Byte) (s : State) : (finishEncode sz t s).mem = storeText sz t s.mem := rfl
@[simp] theorem finishEncode_countdown (sz : Size) (t : List Byte) (s : State) : (finishEncode sz t s).countdown = s.countdown := rfl
@[simp] theorem finishEncode_issues (sz : Size) (t : List Byte) (s : State) : (finishEncode sz t s).issues = s.issues := rfl
@[simp] theorem finishEncode_draws (sz : Size) (t : List Byte) (s : State) : (finishEncode sz t s).draws = s.draws := rfl
@[simp] theorem finishEncode_inputs (sz : Size) (t : List Byte) (s : State) : (finishEncode sz t s).inputs = s.inputs := rfl
@[simp] theorem finishEncode_trace (sz : Size) (t : List Byte) (s : State) : (finishEncode sz t s).trace = s.trace := rfl
@[simp] theorem finishEncode_prog (sz : Size) (t : List Byte) (s : State) : (finishEncode sz t s).prog = s.prog := rfl
@[simp] theorem finishEncode_hostPc (sz : Size) (t : List Byte) (s : State) : (finishEncode sz t s).hostPc = s.hostPc := rfl
@[simp] theorem finishEncode_burst (sz : Size) (t : List Byte) (s : State) : (finishEncode sz t s).burst = s.burst := rfl
@[simp] theorem finishEncode_hostVars (sz : Size) (t : List Byte) (s : State) : (finishEncode sz t s).hostVars = s.hostVars := rfl

@[simp] theorem finishDecode_phase (o : List Byte) (s : State) : (finishDecode o s).phase = .idle := rfl
@[simp] theorem finishDecode_op (o : List Byte) (s : State) : (finishDecode o s).op = s.op := rfl
@[simp] theorem finishDecode_cmd (o : List Byte) (s : State) : (finishDecode o s).cmd = s.cmd := rfl
@[simp] theorem finishDecode_status (o : List Byte) (s : State) : (finishDecode o s).status = statusSuccess := rfl
@[simp] theorem finishDecode_outLen (o : List Byte) (s : State) : (finishDecode o s).outLen = s.outLen := rfl
@[simp] theorem finishDecode_mem (o : List Byte) (s : State) : (finishDecode o s).mem = Memory.writeBytes s.mem outBase o := rfl
@[simp] theorem finishDecode_countdown (o : List Byte) (s : State) : (finishDecode o s).countdown = s.countdown := rfl
@[simp] theorem finishDecode_issues (o : List Byte) (s : State) : (finishDecode o s).issues = s.issues := rfl
@[simp] theorem finishDecode_draws (o : List Byte) (s : State) : (finishDecode o s).draws = s.draws := rfl
@[simp] theorem finishDecode_inputs (o : List Byte) (s : State) : (finishDecode o s).inputs = s.inputs := rfl
@[simp] theorem finishDecode_trace (o : List Byte) (s : State) : (finishDecode o s).trace = s.trace := rfl
@[simp] theorem finishDecode_prog (o : List Byte) (s : State) : (finishDecode o s).prog = s.prog := rfl
@[simp] theorem finishDecode_hostPc (o : List Byte) (s : State) : (finishDecode o s).hostPc = s.hostPc := rfl
@[simp] theorem finishDecode_burst (o : List Byte) (s : State) : (finishDecode o s).burst = s.burst := rfl
@[simp] theorem finishDecode_hostVars (o : List Byte) (s : State) : (finishDecode o s).hostVars = s.hostVars := rfl

@[simp] theorem failDecode_phase (sz : Size) (s : State) : (failDecode sz s).phase = .idle := rfl
@[simp] theorem failDecode_op (sz : Size) (s : State) : (failDecode sz s).op = s.op := rfl
@[simp] theorem failDecode_cmd (sz : Size) (s : State) : (failDecode sz s).cmd = s.cmd := rfl
@[simp] theorem failDecode_status (sz : Size) (s : State) : (failDecode sz s).status = statusFailure := rfl
@[simp] theorem failDecode_outLen (sz : Size) (s : State) : (failDecode sz s).outLen = s.outLen := rfl
@[simp] theorem failDecode_mem (sz : Size) (s : State) : (failDecode sz s).mem = Memory.eraseRange s.mem outBase sz.bytes := rfl
@[simp] theorem failDecode_countdown (sz : Size) (s : State) : (failDecode sz s).countdown = s.countdown := rfl
@[simp] theorem failDecode_issues (sz : Size) (s : State) : (failDecode sz s).issues = s.issues := rfl
@[simp] theorem failDecode_draws (sz : Size) (s : State) : (failDecode sz s).draws = s.draws := rfl
@[simp] theorem failDecode_inputs (sz : Size) (s : State) : (failDecode sz s).inputs = s.inputs := rfl
@[simp] theorem failDecode_trace (sz : Size) (s : State) : (failDecode sz s).trace = s.trace := rfl
@[simp] theorem failDecode_prog (sz : Size) (s : State) : (failDecode sz s).prog = s.prog := rfl
@[simp] theorem failDecode_hostPc (sz : Size) (s : State) : (failDecode sz s).hostPc = s.hostPc := rfl
@[simp] theorem failDecode_burst (sz : Size) (s : State) : (failDecode sz s).burst = s.burst := rfl
@[simp] theorem failDecode_hostVars (sz : Size) (s : State) : (failDecode sz s).hostVars = s.hostVars := rfl

@[simp] theorem resetEvent_phase (s : State) : (resetEvent s).phase = .idle := rfl
@[simp] theorem resetEvent_op (s : State) : (resetEvent s).op = .enc32 := rfl
@[simp] theorem resetEvent_cmd (s : State) : (resetEvent s).cmd = 0x00#8 := rfl
@[simp] theorem resetEvent_status (s : State) : (resetEvent s).status = 0x00#8 := rfl
@[simp] theorem resetEvent_outLen (s : State) : (resetEvent s).outLen = .unspecified := rfl
@[simp] theorem resetEvent_mem (s : State) : (resetEvent s).mem = [] := rfl
@[simp] theorem resetEvent_countdown (s : State) : (resetEvent s).countdown = 0 := rfl
@[simp] theorem resetEvent_issues (s : State) : (resetEvent s).issues = s.issues := rfl
@[simp] theorem resetEvent_draws (s : State) : (resetEvent s).draws = s.draws := rfl
@[simp] theorem resetEvent_inputs (s : State) : (resetEvent s).inputs = s.inputs.tail := rfl
@[simp] theorem resetEvent_trace (s : State) : (resetEvent s).trace = s.trace := rfl
@[simp] theorem resetEvent_prog (s : State) : (resetEvent s).prog = s.prog := rfl
@[simp] theorem resetEvent_hostPc (s : State) : (resetEvent s).hostPc = s.hostPc := rfl
@[simp] theorem resetEvent_burst (s : State) : (resetEvent s).burst = s.burst := rfl
@[simp] theorem resetEvent_hostVars (s : State) : (resetEvent s).hostVars = s.hostVars := rfl

end Sys2Proof.Machine
end

