-- ==== Sys2Proof/Laws/Input.lean ====
section
/-! SUPPORT. What the two readers of IN_BUF can answer: the binary operand, and the scan of a text. -/

namespace Sys2Proof.Machine

theorem readInput_ok {m : List Host.Cell} {i : Nat} {v : Byte} :
    readInput m i = .ok v ↔ Memory.read m (inBase + i) = some v := by
  unfold readInput; cases Memory.read m (inBase + i) <;> simp

theorem readInput_error {m : List Host.Cell} {i : Nat} {f : Fault} :
    readInput m i = .error f ↔ Memory.read m (inBase + i) = none ∧ f = .uninitialisedInput i := by
  unfold readInput; cases Memory.read m (inBase + i) <;> simp [eq_comm]

/-- The operand is read exactly when every byte of it is written, and it is those bytes. -/
theorem readBinary_ok {m : List Host.Cell} {i n : Nat} {b : List Byte} :
    readBinary m i n = .ok b ↔ b.length = n ∧ ∀ k < n, Memory.read m (inBase + (i + k)) = b[k]? := by
  induction n generalizing i b with
  | zero => cases b <;> simp [readBinary]
  | succ n ih =>
    simp only [readBinary]
    split
    · rename_i f hf
      obtain ⟨hn, -⟩ := readInput_error.1 hf
      simp only [reduceCtorEq, false_iff, not_and, not_forall]
      intro hl
      refine ⟨0, by omega, ?_⟩
      obtain ⟨v, b, rfl⟩ := List.exists_cons_of_length_eq_add_one hl
      simp [hn]
    · rename_i v hv
      have hv := readInput_ok.1 hv
      cases hr : readBinary m (i + 1) n with
      | error f =>
        simp only [reduceCtorEq, false_iff, not_and, not_forall]
        intro hl
        obtain ⟨w, b, rfl⟩ := List.exists_cons_of_length_eq_add_one hl
        by_contra hc
        push Not at hc
        have : readBinary m (i + 1) n = .ok b := ih.2 ⟨by simpa using hl, fun k hk => by
          have := hc (k + 1) (by omega)
          rwa [List.getElem?_cons_succ, show i + (k + 1) = i + 1 + k by omega] at this⟩
        simp [hr] at this
      | ok vs =>
        obtain ⟨hl, hk⟩ := ih.1 hr
        simp only [Except.ok.injEq]
        constructor
        · rintro rfl
          refine ⟨by simp [hl], fun k hk' => ?_⟩
          cases k with
          | zero => simpa using hv
          | succ k => rw [List.getElem?_cons_succ, ← hk k (by omega), show i + (k + 1) = i + 1 + k by omega]
        · rintro ⟨hl', hb⟩
          obtain ⟨w, b, rfl⟩ := List.exists_cons_of_length_eq_add_one hl'
          have h0 := hb 0 (by omega)
          simp only [Nat.add_zero, hv, List.getElem?_cons_zero, Option.some.injEq] at h0
          subst h0
          congr 1
          refine List.ext_getElem? fun k => ?_
          by_cases hkn : k < n
          · have := hb (k + 1) (by omega)
            rw [List.getElem?_cons_succ, show i + (k + 1) = i + 1 + k by omega, hk k hkn] at this
            exact this
          · simp only [List.length_cons, Nat.add_right_cancel_iff] at hl'
            rw [List.getElem?_eq_none (by omega), List.getElem?_eq_none (by omega)]

/-- The reader stops at the lowest unwritten byte of the operand. -/
theorem readBinary_error {m : List Host.Cell} {i n : Nat} {f : Fault} :
    readBinary m i n = .error f ↔
      ∃ k < n, f = .uninitialisedInput (i + k) ∧ Memory.read m (inBase + (i + k)) = none ∧
        ∀ j < k, (Memory.read m (inBase + (i + j))).isSome := by
  induction n generalizing i with
  | zero => simp [readBinary]
  | succ n ih =>
    simp only [readBinary]
    split
    · rename_i g hg
      obtain ⟨hn, rfl⟩ := readInput_error.1 hg
      constructor
      · intro h; cases h
        exact ⟨0, by omega, rfl, hn, fun j hj => by omega⟩
      · rintro ⟨k, hk, rfl, -, hj⟩
        rcases Nat.eq_zero_or_pos k with rfl | hpos
        · rfl
        · have := hj 0 hpos; simp [hn] at this
    · rename_i v hv
      have hv := readInput_ok.1 hv
      have key : readBinary m (i + 1) n = .error f ↔ ∃ k < n + 1, f = .uninitialisedInput (i + k) ∧
          Memory.read m (inBase + (i + k)) = none ∧ ∀ j < k, (Memory.read m (inBase + (i + j))).isSome := by
        rw [ih]
        constructor
        · rintro ⟨k, hk, rfl, hn, hj⟩
          refine ⟨k + 1, by omega, by rw [show i + (k + 1) = i + 1 + k by omega],
            by rwa [show i + (k + 1) = i + 1 + k by omega], fun j hjk => ?_⟩
          cases j with
          | zero => simp [hv]
          | succ j => rw [show i + (j + 1) = i + 1 + j by omega]; exact hj j (by omega)
        · rintro ⟨k, hk, rfl, hn, hj⟩
          cases k with
          | zero => simp [hv] at hn
          | succ k =>
            refine ⟨k, by omega, by rw [show i + (k + 1) = i + 1 + k by omega],
              by rwa [show i + (k + 1) = i + 1 + k by omega] at hn, fun j hjk => ?_⟩
            have := hj (j + 1) (by omega)
            rwa [show i + (j + 1) = i + 1 + j by omega] at this
      rw [← key]
      cases readBinary m (i + 1) n <;> simp

theorem isTextChar_iff {c : Byte} : isTextChar c = true ↔ c ≠ 0x00#8 ∧ inverse c ≠ sentinel := by
  simp [isTextChar, validChar]

theorem scan_cons_text {c : Byte} {r : Scan} {t : List Byte} : r.cons c = .text t ↔ ∃ u, r = .text u ∧ t = c :: u := by
  cases r <;> simp [Scan.cons, eq_comm]

theorem scan_cons_fail {c : Byte} {r : Scan} : r.cons c = .fail ↔ r = .fail := by cases r <;> simp [Scan.cons]

theorem scan_cons_stop {c : Byte} {r : Scan} {f : Fault} : r.cons c = .stop f ↔ r = .stop f := by
  cases r <;> simp [Scan.cons]

/-- One step of the scan, as three cases. -/
theorem scanText_succ (m : List Host.Cell) (cc fuel : Nat) :
    (Memory.read m (inBase + cc) = none ∧ scanText m cc (fuel + 1) = .stop (.uninitialisedInput cc)) ∨
    (Memory.read m (inBase + cc) = some 0x00#8 ∧ scanText m cc (fuel + 1) = .text []) ∨
    (∃ c, Memory.read m (inBase + cc) = some c ∧ c ≠ 0x00#8 ∧ inverse c = sentinel ∧ scanText m cc (fuel + 1) = .fail) ∨
    (∃ c, Memory.read m (inBase + cc) = some c ∧ isTextChar c = true ∧
      scanText m cc (fuel + 1) = (scanText m (cc + 1) fuel).cons c) := by
  simp only [scanText]
  split
  · rename_i f hf
    obtain ⟨hn, rfl⟩ := readInput_error.1 hf
    exact .inl ⟨hn, rfl⟩
  · rename_i c hc
    have hc := readInput_ok.1 hc
    split
    · subst_vars; exact .inr (.inl ⟨hc, rfl⟩)
    · split
      · exact .inr (.inr (.inl ⟨c, hc, ‹_›, ‹_›, rfl⟩))
      · exact .inr (.inr (.inr ⟨c, hc, isTextChar_iff.2 ⟨‹_›, ‹_›⟩, rfl⟩))

/-- The scan finds a text exactly when that text stands at the front of IN_BUF with its terminator in bounds. -/
theorem scanText_text {m : List Host.Cell} {cc fuel : Nat} {t : List Byte} :
    scanText m cc fuel = .text t ↔
      t.length < fuel ∧ (∀ k < t.length, Memory.read m (inBase + (cc + k)) = t[k]?) ∧
        (∀ c ∈ t, isTextChar c = true) ∧ Memory.read m (inBase + (cc + t.length)) = some 0x00#8 := by
  induction fuel generalizing cc t with
  | zero => simp [scanText]
  | succ fuel ih =>
    rcases scanText_succ m cc fuel with ⟨hr, hs⟩ | ⟨hr, hs⟩ | ⟨c, hr, h0, hi, hs⟩ | ⟨c, hr, hc, hs⟩ <;> rw [hs]
    · simp only [reduceCtorEq, false_iff]
      rintro ⟨-, hk, -, hz⟩
      cases t with
      | nil => simp [hr] at hz
      | cons d t => have := hk 0 (by simp); simp [hr] at this
    · simp only [Scan.text.injEq]
      constructor
      · rintro rfl; simp [hr]
      · rintro ⟨-, hk, hc, -⟩
        cases t with
        | nil => rfl
        | cons d t =>
          have h1 := hk 0 (by simp)
          simp only [Nat.add_zero, hr, List.getElem?_cons_zero, Option.some.injEq] at h1
          have := (isTextChar_iff.1 (hc d (by simp))).1
          exact absurd h1.symm this
    · simp only [reduceCtorEq, false_iff]
      rintro ⟨-, hk, hc, hz⟩
      cases t with
      | nil => simp only [List.length_nil, Nat.add_zero, hr, Option.some.injEq] at hz; exact h0 hz
      | cons d t =>
        have h1 := hk 0 (by simp)
        simp only [Nat.add_zero, hr, List.getElem?_cons_zero, Option.some.injEq] at h1
        exact (isTextChar_iff.1 (hc d (by simp))).2 (h1 ▸ hi)
    · rw [scan_cons_text]
      constructor
      · rintro ⟨u, hu, rfl⟩
        obtain ⟨hl, hk, hcs, hz⟩ := ih.1 hu
        refine ⟨by simp; omega, fun k hk' => ?_, ?_, ?_⟩
        · cases k with
          | zero => simpa using hr
          | succ k =>
            rw [List.getElem?_cons_succ, ← hk k (by simpa using hk'), show cc + (k + 1) = cc + 1 + k by omega]
        · simpa [hc] using hcs
        · rwa [List.length_cons, show cc + (u.length + 1) = cc + 1 + u.length by omega]
      · rintro ⟨hl, hk, hcs, hz⟩
        cases t with
        | nil =>
          simp only [List.length_nil, Nat.add_zero, hr, Option.some.injEq] at hz
          exact absurd hz (isTextChar_iff.1 hc).1
        | cons d t =>
          have h1 := hk 0 (by simp)
          simp only [Nat.add_zero, hr, List.getElem?_cons_zero, Option.some.injEq] at h1
          subst h1
          refine ⟨t, ih.2 ⟨by simpa using hl, fun k hk' => ?_, fun e he => hcs e (by simp [he]), ?_⟩, rfl⟩
          · have := hk (k + 1) (by simpa using hk')
            rwa [List.getElem?_cons_succ, show cc + (k + 1) = cc + 1 + k by omega] at this
          · rwa [List.length_cons, show cc + (t.length + 1) = cc + 1 + t.length by omega] at hz

/-- The scan stops at an unwritten byte exactly when only text characters stand before it. -/
theorem scanText_stop {m : List Host.Cell} {cc fuel : Nat} {f : Fault} :
    scanText m cc fuel = .stop f ↔
      ∃ k < fuel, f = .uninitialisedInput (cc + k) ∧ Memory.read m (inBase + (cc + k)) = none ∧
        ∀ j < k, ∃ c, Memory.read m (inBase + (cc + j)) = some c ∧ isTextChar c = true := by
  induction fuel generalizing cc with
  | zero => simp [scanText]
  | succ fuel ih =>
    have head : ∀ {P : Nat → Prop}, ¬ P 0 → ((∃ k < fuel + 1, P k) ↔ ∃ k < fuel, P (k + 1)) := by
      intro P h0
      constructor
      · rintro ⟨k, hk, hp⟩
        cases k with
        | zero => exact absurd hp h0
        | succ k => exact ⟨k, by omega, hp⟩
      · rintro ⟨k, hk, hp⟩; exact ⟨k + 1, by omega, hp⟩
    rcases scanText_succ m cc fuel with ⟨hr, hs⟩ | ⟨hr, hs⟩ | ⟨c, hr, h0, hi, hs⟩ | ⟨c, hr, hc, hs⟩ <;> rw [hs]
    · constructor
      · intro h; cases h; exact ⟨0, by omega, rfl, hr, fun j hj => by omega⟩
      · rintro ⟨k, -, rfl, -, hj⟩
        rcases Nat.eq_zero_or_pos k with rfl | hpos
        · rfl
        · obtain ⟨c, h1, -⟩ := hj 0 hpos; simp [hr] at h1
    · simp only [reduceCtorEq, false_iff]
      rintro ⟨k, -, -, hn, hj⟩
      rcases Nat.eq_zero_or_pos k with rfl | hpos
      · simp [hr] at hn
      · obtain ⟨c, h1, h2⟩ := hj 0 hpos
        simp only [Nat.add_zero, hr, Option.some.injEq] at h1
        exact (isTextChar_iff.1 h2).1 h1.symm
    · simp only [reduceCtorEq, false_iff]
      rintro ⟨k, -, -, hn, hj⟩
      rcases Nat.eq_zero_or_pos k with rfl | hpos
      · simp [hr] at hn
      · obtain ⟨d, h1, h2⟩ := hj 0 hpos
        simp only [Nat.add_zero, hr, Option.some.injEq] at h1
        exact (isTextChar_iff.1 h2).2 (h1 ▸ hi)
    · rw [scan_cons_stop, ih, head (by simp [hr])]
      refine exists_congr fun k => and_congr_right fun _ => ?_
      rw [show cc + (k + 1) = cc + 1 + k by omega]
      refine and_congr_right fun _ => and_congr_right fun _ => ?_
      constructor
      · intro h j hj
        cases j with
        | zero => exact ⟨c, by simpa using hr, hc⟩
        | succ j => rw [show cc + (j + 1) = cc + 1 + j by omega]; exact h j (by omega)
      · intro h j hj
        have := h (j + 1) (by omega)
        rwa [show cc + (j + 1) = cc + 1 + j by omega] at this

/-- The scan fails exactly when it meets an invalid character, or no terminator in bounds. -/
theorem scanText_fail {m : List Host.Cell} {cc fuel : Nat} :
    scanText m cc fuel = .fail ↔
      (∃ k < fuel, (∃ c, Memory.read m (inBase + (cc + k)) = some c ∧ c ≠ 0x00#8 ∧ validChar c = false) ∧
        ∀ j < k, ∃ c, Memory.read m (inBase + (cc + j)) = some c ∧ isTextChar c = true) ∨
      (∀ j < fuel, ∃ c, Memory.read m (inBase + (cc + j)) = some c ∧ isTextChar c = true) := by
  induction fuel generalizing cc with
  | zero => simp [scanText]
  | succ fuel ih =>
    rcases scanText_succ m cc fuel with ⟨hr, hs⟩ | ⟨hr, hs⟩ | ⟨c, hr, h0, hi, hs⟩ | ⟨c, hr, hc, hs⟩ <;> rw [hs]
    · simp only [reduceCtorEq, false_iff, not_or]
      refine ⟨?_, fun h => ?_⟩
      · rintro ⟨k, -, ⟨c, h1, -⟩, hj⟩
        rcases Nat.eq_zero_or_pos k with rfl | hpos
        · simp [hr] at h1
        · obtain ⟨d, h2, -⟩ := hj 0 hpos; simp [hr] at h2
      · obtain ⟨d, h2, -⟩ := h 0 (by omega); simp [hr] at h2
    · simp only [reduceCtorEq, false_iff, not_or]
      have no : ¬ ∃ d, Memory.read m (inBase + (cc + 0)) = some d ∧ isTextChar d = true := by
        rintro ⟨d, h1, h2⟩
        simp only [Nat.add_zero, hr, Option.some.injEq] at h1
        exact (isTextChar_iff.1 h2).1 h1.symm
      refine ⟨?_, fun h => no (h 0 (by omega))⟩
      rintro ⟨k, -, ⟨d, h1, h2, -⟩, hj⟩
      rcases Nat.eq_zero_or_pos k with rfl | hpos
      · simp only [Nat.add_zero, hr, Option.some.injEq] at h1; exact h2 h1.symm
      · exact no (hj 0 hpos)
    · simp only [true_iff]
      exact .inl ⟨0, by omega, ⟨c, by simpa using hr, h0, by simp [validChar, hi]⟩, fun j hj => by omega⟩
    · rw [scan_cons_fail, ih]
      have shift : ∀ k, (∀ j < k + 1, ∃ c, Memory.read m (inBase + (cc + j)) = some c ∧ isTextChar c = true) ↔
          ∀ j < k, ∃ c, Memory.read m (inBase + (cc + 1 + j)) = some c ∧ isTextChar c = true := by
        intro k
        constructor
        · intro h j hj
          have := h (j + 1) (by omega)
          rwa [show cc + (j + 1) = cc + 1 + j by omega] at this
        · intro h j hj
          cases j with
          | zero => exact ⟨c, by simpa using hr, hc⟩
          | succ j => rw [show cc + (j + 1) = cc + 1 + j by omega]; exact h j (by omega)
      rw [shift]
      refine or_congr_left ?_
      constructor
      · rintro ⟨k, hk, h1, h2⟩
        exact ⟨k + 1, by omega, by rwa [show cc + (k + 1) = cc + 1 + k by omega], (shift k).2 h2⟩
      · rintro ⟨k, hk, ⟨d, h1, h2, h3⟩, h4⟩
        cases k with
        | zero =>
          simp only [Nat.add_zero, hr, Option.some.injEq] at h1
          subst h1
          exact absurd (isTextChar_iff.1 hc).2 (by simpa [validChar] using h3)
        | succ k =>
          exact ⟨k, by omega, ⟨d, by rwa [show cc + (k + 1) = cc + 1 + k by omega] at h1, h2, h3⟩, (shift k).1 h4⟩

end Sys2Proof.Machine
end

