-- ==== Sys2Proof/Laws/Memory.lean ====
section
/-! SUPPORT. The laws of the buffers' memory: read after write, read after erase, and that every operation keeps the canonical form. -/

namespace Sys2Proof.Machine

theorem Memory.read_write (m : List Host.Cell) (a b : Nat) (v : Byte) :
    Memory.read (Memory.write m a v) b = if b = a then some v else Memory.read m b := by
  induction m with
  | nil => simp [Memory.write, Memory.read]
  | cons c m ih =>
    obtain ⟨k, w⟩ := c
    simp only [Memory.write]
    split
    · simp [Memory.read]
    · split
      · subst_vars; simp only [Memory.read]; split <;> simp_all
      · simp only [Memory.read, ih]; split <;> split <;> simp_all

@[simp] theorem Memory.read_write_same (m : List Host.Cell) (a : Nat) (v : Byte) :
    Memory.read (Memory.write m a v) a = some v := by simp [Memory.read_write]

theorem Memory.read_write_other (m : List Host.Cell) {a b : Nat} (v : Byte) (h : b ≠ a) :
    Memory.read (Memory.write m a v) b = Memory.read m b := by simp [Memory.read_write, h]

theorem Memory.read_erase (m : List Host.Cell) (a b : Nat) :
    Memory.read (Memory.erase m a) b = if b = a then none else Memory.read m b := by
  induction m with
  | nil => simp [Memory.erase, Memory.read]
  | cons c m ih =>
    obtain ⟨k, w⟩ := c
    simp only [Memory.erase, List.filter_cons] at ih ⊢
    by_cases h : k = a
    · subst h; simp only [Memory.read, ne_eq, not_true_eq_false, decide_false, Bool.false_eq_true, ↓reduceIte, ih]
      split <;> simp_all
    · simp only [Memory.read, ne_eq, h, not_false_eq_true, decide_true, ↓reduceIte, ih]
      split <;> split <;> simp_all

/-- Reading after a run of writes: the byte written there, or what was there before. -/
theorem Memory.read_writeBytes (vs : List Byte) (m : List Host.Cell) (a b : Nat) :
    Memory.read (Memory.writeBytes m a vs) b =
      if a ≤ b ∧ b < a + vs.length then vs[b - a]? else Memory.read m b := by
  induction vs generalizing m a with
  | nil => simp only [Memory.writeBytes, List.length_nil]; split <;> first | omega | rfl
  | cons v vs ih =>
    simp only [Memory.writeBytes, ih, Memory.read_write, List.length_cons]
    by_cases h1 : b = a
    · subst h1
      rw [if_neg (by omega), if_pos rfl, if_pos (by omega)]; simp
    · by_cases h2 : a + 1 ≤ b ∧ b < a + 1 + vs.length
      · rw [if_pos h2, if_pos (by omega)]
        have : b - a = (b - (a + 1)) + 1 := by omega
        rw [this, List.getElem?_cons_succ]
      · rw [if_neg h2, if_neg h1, if_neg (by omega)]

/-- Reading after a range was made unlisted. -/
theorem Memory.read_eraseRange (n : Nat) (m : List Host.Cell) (a b : Nat) :
    Memory.read (Memory.eraseRange m a n) b = if a ≤ b ∧ b < a + n then none else Memory.read m b := by
  induction n generalizing m a with
  | zero => simp only [Memory.eraseRange]; rw [if_neg (by omega)]
  | succ n ih =>
    simp only [Memory.eraseRange, ih, Memory.read_erase]
    by_cases h1 : b = a
    · subst h1; rw [if_neg (by omega), if_pos rfl, if_pos (by omega)]
    · by_cases h2 : a + 1 ≤ b ∧ b < a + 1 + n
      · rw [if_pos h2, if_pos (by omega)]
      · rw [if_neg h2, if_neg h1, if_neg (by omega)]

/-- The addresses of a memory after one write: the old ones and the new one. -/
theorem Memory.mem_write {m : List Host.Cell} {a : Nat} {v : Byte} {c : Host.Cell} (h : c ∈ Memory.write m a v) :
    c = (a, v) ∨ c ∈ m := by
  induction m with
  | nil => simpa [Memory.write] using h
  | cons d m ih =>
    obtain ⟨k, w⟩ := d
    simp only [Memory.write] at h
    split at h
    · simpa using h
    · split at h
      · rcases List.mem_cons.1 h with h | h
        · exact .inl h
        · exact .inr (List.mem_cons_of_mem _ h)
      · rcases List.mem_cons.1 h with h | h
        · exact .inr (h ▸ List.mem_cons_self)
        · exact (ih h).imp id (List.mem_cons_of_mem _)

theorem Memory.wf_nil : Memory.wf [] := by simp [Memory.wf]

theorem Memory.wf_write {m : List Host.Cell} {a : Nat} (v : Byte) (h : Memory.wf m) (ha : inBuffers a) :
    Memory.wf (Memory.write m a v) := by
  refine ⟨?_, fun c hc => ?_⟩
  · induction m with
    | nil => simp [Memory.write]
    | cons d m ih =>
      obtain ⟨k, w⟩ := d
      obtain ⟨hp, hb⟩ := h
      simp only [List.map_cons, List.pairwise_cons] at hp
      simp only [Memory.write]
      split
      · rename_i hlt
        simp only [List.map_cons, List.pairwise_cons]
        refine ⟨?_, hp⟩
        intro x hx
        rcases List.mem_cons.1 hx with rfl | hx
        · exact hlt
        · exact lt_trans hlt (hp.1 x hx)
      · split
        · subst_vars; simp only [List.map_cons, List.pairwise_cons]; exact hp
        · rename_i h1 h2
          simp only [List.map_cons, List.pairwise_cons]
          refine ⟨?_, ih ⟨hp.2, fun c hc => hb c (List.mem_cons_of_mem _ hc)⟩⟩
          intro x hx
          obtain ⟨c, hc, rfl⟩ := List.mem_map.1 hx
          rcases Memory.mem_write hc with rfl | hc
          · show k < a; omega
          · exact hp.1 _ (List.mem_map_of_mem hc)
  · rcases Memory.mem_write hc with rfl | hc
    · exact ha
    · exact h.2 c hc

theorem Memory.wf_erase {m : List Host.Cell} (a : Nat) (h : Memory.wf m) : Memory.wf (Memory.erase m a) :=
  ⟨h.1.sublist (List.filter_sublist.map _), fun c hc => h.2 c (List.mem_filter.1 hc).1⟩

theorem Memory.wf_writeBytes {m : List Host.Cell} {a : Nat} {vs : List Byte} (h : Memory.wf m)
    (ha : ∀ i < vs.length, inBuffers (a + i)) : Memory.wf (Memory.writeBytes m a vs) := by
  induction vs generalizing m a with
  | nil => exact h
  | cons v vs ih =>
    refine ih (Memory.wf_write v h (by simpa using ha 0 (by simp))) fun i hi => ?_
    have := ha (i + 1) (by simpa using hi)
    rwa [show a + 1 + i = a + (i + 1) by omega]

theorem Memory.wf_eraseRange {m : List Host.Cell} (a n : Nat) (h : Memory.wf m) : Memory.wf (Memory.eraseRange m a n) := by
  induction n generalizing m a with
  | zero => exact h
  | succ n ih => exact ih (a + 1) (Memory.wf_erase a h)

/-- Two memories in canonical form that read alike are the same list. -/
theorem Memory.ext_of_wf {m n : List Host.Cell} (hm : Memory.wf m) (hn : Memory.wf n)
    (h : ∀ a, Memory.read m a = Memory.read n a) : m = n := by
  induction m generalizing n with
  | nil =>
    cases n with
    | nil => rfl
    | cons d n => have := h d.1; simp [Memory.read] at this
  | cons c m ih =>
    cases n with
    | nil => have := h c.1; simp [Memory.read] at this
    | cons d n =>
      obtain ⟨k, v⟩ := c
      obtain ⟨l, w⟩ := d
      have hm1 := hm.1; have hn1 := hn.1
      simp only [List.map_cons, List.pairwise_cons] at hm1 hn1
      have none_of : ∀ (q : List Host.Cell) (x : Nat), (∀ y ∈ q.map Prod.fst, x < y) → Memory.read q x = none := by
        intro q x hq
        induction q with
        | nil => rfl
        | cons e q ihq =>
          obtain ⟨y, u⟩ := e
          have hy := hq y (by simp)
          simp only [Memory.read]
          rw [if_neg (by omega)]
          exact ihq fun z hz => hq z (by simp [hz])
      have hkl : k = l := by
        rcases lt_trichotomy k l with hlt | heq | hgt
        · exfalso
          have := h k
          simp only [Memory.read, ↓reduceIte, if_neg (Nat.ne_of_lt hlt)] at this
          rw [none_of n k fun y hy => lt_trans hlt (hn1.1 y hy)] at this
          simp at this
        · exact heq
        · exfalso
          have := h l
          simp only [Memory.read, ↓reduceIte, if_neg (Nat.ne_of_lt hgt)] at this
          rw [none_of m l fun y hy => lt_trans hgt (hm1.1 y hy)] at this
          simp at this
      subst hkl
      have hvw : v = w := by simpa [Memory.read] using h k
      subst hvw
      congr 1
      refine ih ⟨hm1.2, fun c hc => hm.2 c (by simp [hc])⟩ ⟨hn1.2, fun c hc => hn.2 c (by simp [hc])⟩ fun a => ?_
      by_cases ha : a = k
      · subst ha; rw [none_of m a hm1.1, none_of n a hn1.1]
      · simpa [Memory.read, ha] using h a

end Sys2Proof.Machine
end

