-- ==== Sys2Proof/Laws/Ops.lean ====
section
/-! SUPPORT. The shared operations: which place each write goes to, everything an access can do, and what stays. -/

namespace Sys2Proof.Machine

@[simp] theorem placeOf_cmd : placeOf 0#10 = .cmd := rfl

@[simp] theorem placeOf_status : placeOf 1#10 = .status := rfl

@[simp] theorem placeOf_outLen : placeOf 2#10 = .outLen := rfl

/-- The only address of CMD is 0 (20_memory.md R52). -/
theorem placeOf_eq_cmd {a : Addr} : placeOf a = .cmd ↔ a = 0#10 := by
  constructor
  · intro h
    simp only [placeOf] at h
    split_ifs at h with h0
    exact BitVec.eq_of_toNat_eq h0
  · rintro rfl; rfl

/-- The addresses of IN_BUF (20_memory.md R52). -/
theorem placeOf_eq_inBuf {a : Addr} {i : Nat} : placeOf a = .inBuf i ↔ i < bufSize ∧ a.toNat = inBase + i := by
  have hi : inBase = 0x100 := rfl
  have ho : outBase = 0x200 := rfl
  have hs : bufSize = 89 := rfl
  unfold placeOf
  constructor
  · intro h
    dsimp only at h
    split_ifs at h
    simp only [Place.inBuf.injEq] at h
    omega
  · rintro ⟨h1, h2⟩
    rw [if_neg (by omega), if_neg (by omega), if_neg (by omega), if_pos (by omega)]
    rw [h2, Nat.add_sub_cancel_left]

/-- The addresses of OUT_BUF (20_memory.md R52). -/
theorem placeOf_eq_outBuf {a : Addr} {i : Nat} : placeOf a = .outBuf i ↔ i < bufSize ∧ a.toNat = outBase + i := by
  have hi : inBase = 0x100 := rfl
  have ho : outBase = 0x200 := rfl
  have hs : bufSize = 89 := rfl
  unfold placeOf
  constructor
  · intro h
    dsimp only at h
    split_ifs at h
    simp only [Place.outBuf.injEq] at h
    omega
  · rintro ⟨h1, h2⟩
    rw [if_neg (by omega), if_neg (by omega), if_neg (by omega), if_neg (by omega), if_pos (by omega)]
    rw [h2, Nat.add_sub_cancel_left]

@[simp] theorem statusIssued_eq : statusIssued = 0x01#8 := rfl

@[simp] theorem statusIllegalCommand_eq : statusIllegalCommand = 0x0A#8 := rfl

@[simp] theorem statusSuccess_eq : statusSuccess = 0x02#8 := rfl

@[simp] theorem statusFailure_eq : statusFailure = 0x06#8 := rfl

/-- Everything a host write that goes on can do: issue, report, store one input byte, or nothing. -/
theorem hostWrite_next {a : Addr} {v : Byte} {s t : State} (h : hostWrite a v s = .next t) :
    (a = 0#10 ∧ s.phase = .idle ∧ ∃ i, decodeCommand v = .ok i ∧ t = issueCommand i v s) ∨
    (a = 0#10 ∧ s.phase = .idle ∧ (∃ e, decodeCommand v = .error e) ∧ t = reportIllegal v s) ∨
    (∃ i < bufSize, a.toNat = inBase + i ∧ s.phase = .idle ∧ t = { s with mem := Memory.write s.mem (inBase + i) v }) ∨
    (a ≠ 0#10 ∧ t = s) := by
  unfold hostWrite at h
  cases hp : placeOf a with
  | cmd =>
    have ha := placeOf_eq_cmd.1 hp
    cases hs : s.phase with
    | busy => simp [hp, writeCmd, hs] at h
    | idle =>
      cases hd : decodeCommand v with
      | ok i => simp only [hp, writeCmd, hs, hd, Host.Outcome.next.injEq] at h; exact .inl ⟨ha, rfl, i, rfl, h.symm⟩
      | error e =>
        simp only [hp, writeCmd, hs, hd, Host.Outcome.next.injEq] at h; exact .inr (.inl ⟨ha, rfl, ⟨e, rfl⟩, h.symm⟩)
  | inBuf i =>
    obtain ⟨hi, ha⟩ := placeOf_eq_inBuf.1 hp
    cases hs : s.phase with
    | busy => simp [hp, writeInBuf, hs] at h
    | idle =>
      simp only [hp, writeInBuf, hs, Host.Outcome.next.injEq] at h
      exact .inr (.inr (.inl ⟨i, hi, ha, rfl, h.symm⟩))
  | status | outLen | outBuf _ | reserved =>
    simp only [hp, Host.Outcome.next.injEq] at h
    refine .inr (.inr (.inr ⟨?_, h.symm⟩))
    rintro rfl
    simp at hp

/-- A host read changes no state but the count of draws. -/
theorem hostRead_snd (a : Addr) (s : State) : ∃ d, (hostRead a s).2 = { s with draws := d } := by
  unfold hostRead orDraw
  cases visible a s
  · exact ⟨_, rfl⟩
  · exact ⟨s.draws, rfl⟩

/-- A host read that may rely on a value returns it. -/
theorem hostRead_of_visible {a : Addr} {s : State} {v : Byte} (h : visible a s = some v) : hostRead a s = (v, s) := by
  simp [hostRead, orDraw, h]

/-- A bus read changes no state but the count of draws and the trace. -/
theorem busRead_snd (a : Addr) (s : State) : ∃ d tr, (busRead a s).2 = { s with draws := d, trace := tr } := by
  obtain ⟨d, hd⟩ := hostRead_snd a s
  exact ⟨d, .gave a (hostRead a s).1 :: (hostRead a s).2.trace, by simp [busRead, hd]⟩

/-- A bus write that goes on is a host write that goes on, written down in the trace. -/
theorem busWrite_next {a : Addr} {v : Byte} {s t : State} (h : busWrite a v s = .next t) :
    ∃ u, hostWrite a v s = .next u ∧ t = { u with trace := .wrote a v :: u.trace } := by
  unfold busWrite onNext at h
  cases hw : hostWrite a v s with
  | next u => simp only [hw, Host.Outcome.next.injEq] at h; exact ⟨u, rfl, h.symm⟩
  | fault f => simp [hw] at h
  | refused r => simp [hw] at h

/-- What an access that goes on can do. -/
theorem hostAccess_next {x : Access} {s t : State} (h : hostAccess x s = .next t) :
    (∃ a, x = .read a 8 ∧ t = (busRead a s).2) ∨ (∃ a v, x = .write a 8 v ∧ busWrite a v s = .next t) := by
  cases x with
  | read a w =>
    simp only [hostAccess] at h
    split at h
    · subst_vars; cases h; exact .inl ⟨a, rfl, rfl⟩
    · cases h
  | write a w d =>
    simp only [hostAccess] at h
    split at h
    · subst_vars; exact .inr ⟨a, d, rfl, by simpa using h⟩
    · cases h

end Sys2Proof.Machine
end

