-- ==== Sys2Proof/Laws/Commands.lean ====
section
/-! SUPPORT. The two runs behind the four commands, each said once: when a run goes on, with which state, when it stops, and what the
three ways to complete leave in memory. -/

namespace Sys2Proof.Machine

/-- Each command is one of the two runs at its size (42_encode.md R171, R172; 43_decode.md R197, R198). -/
theorem exec_eq_run (i : Instr) (s : State) :
    exec i s = if isEncode i then runEncode (commandSize i) s else runDecode (commandSize i) s := by
  cases i <;> rfl

theorem runEncode_next {sz : Size} {s t : State} :
    runEncode sz s = .next t ↔ ∃ b, readBinary s.mem 0 sz.bytes = .ok b ∧ t = finishEncode sz (encodeText sz b) s := by
  unfold runEncode
  cases readBinary s.mem 0 sz.bytes <;> simp [eq_comm]

theorem runEncode_fault {sz : Size} {s : State} {f : Fault} :
    runEncode sz s = .fault f ↔ readBinary s.mem 0 sz.bytes = .error f := by
  unfold runEncode
  cases readBinary s.mem 0 sz.bytes <;> simp

theorem runEncode_not_refused (sz : Size) (s : State) (r : Refusal) : runEncode sz s ≠ .refused r := by
  unfold runEncode
  cases readBinary s.mem 0 sz.bytes <;> simp

theorem runDecode_next {sz : Size} {s t : State} :
    runDecode sz s = .next t ↔
      (∃ x out, scanText s.mem 0 sz.encoded = .text x ∧ decodeText sz x = some out ∧ t = finishDecode out s) ∨
      ((scanText s.mem 0 sz.encoded = .fail ∨ ∃ x, scanText s.mem 0 sz.encoded = .text x ∧ decodeText sz x = none) ∧
        t = failDecode sz s) := by
  unfold runDecode
  cases scanText s.mem 0 sz.encoded with
  | text x => cases h : decodeText sz x <;> simp [h, eq_comm]
  | fail => simp [eq_comm]
  | stop f => simp

theorem runDecode_fault {sz : Size} {s : State} {f : Fault} :
    runDecode sz s = .fault f ↔ scanText s.mem 0 sz.encoded = .stop f := by
  unfold runDecode
  cases scanText s.mem 0 sz.encoded with
  | text x => cases h : decodeText sz x <;> simp [h]
  | fail => simp
  | stop g => simp

theorem runDecode_not_refused (sz : Size) (s : State) (r : Refusal) : runDecode sz s ≠ .refused r := by
  unfold runDecode
  cases scanText s.mem 0 sz.encoded with
  | text x => cases h : decodeText sz x <;> simp [h]
  | fail => simp
  | stop g => simp

/-- Every byte of memory after a completed encode (42_encode.md R175). -/
theorem read_finishEncode (sz : Size) (text : List Byte) (s : State) (a : Nat) (h : text.length < sz.encoded) :
    Memory.read (finishEncode sz text s).mem a =
      if outBase ≤ a ∧ a < outBase + sz.encoded then (text ++ [0x00#8])[a - outBase]? else Memory.read s.mem a := by
  rw [finishEncode_mem, storeText, Memory.read_eraseRange, Memory.read_writeBytes]
  simp only [List.length_append, List.length_cons, List.length_nil, Nat.zero_add]
  by_cases h1 : outBase ≤ a ∧ a < outBase + sz.encoded
  · rw [if_pos h1]
    by_cases h2 : a < outBase + (text.length + 1)
    · rw [if_neg (by omega), if_pos ⟨h1.1, h2⟩]
    · rw [if_pos (by omega), List.getElem?_eq_none (by simp; omega)]
  · rw [if_neg h1, if_neg (by omega), if_neg (by omega)]

/-- Every byte of memory after a decode that succeeds (43_decode.md R196). -/
theorem read_finishDecode (out : List Byte) (s : State) (a : Nat) :
    Memory.read (finishDecode out s).mem a =
      if outBase ≤ a ∧ a < outBase + out.length then out[a - outBase]? else Memory.read s.mem a := by
  rw [finishDecode_mem, Memory.read_writeBytes]

/-- Every byte of memory after a decode that fails (43_decode.md R196). -/
theorem read_failDecode (sz : Size) (s : State) (a : Nat) :
    Memory.read (failDecode sz s).mem a = if outBase ≤ a ∧ a < outBase + sz.bytes then none else Memory.read s.mem a := by
  rw [failDecode_mem, Memory.read_eraseRange]

/-- The bytes of an unpacked limb array (40_components.md R108). -/
theorem length_unpack (bin : List Acc) : (unpack bin).length = 4 * bin.length := by
  induction bin with
  | nil => rfl
  | cons a bin ih =>
    show (limbBytes (limb32 a) ++ unpack bin).length = _
    rw [List.length_append, ih]
    simp only [limbBytes, List.length_cons, List.length_nil]
    omega

end Sys2Proof.Machine
end

