-- ==== Sys2Proof/Laws/Values.lean ====
section
/-! SUPPORT. Digit strings and their values: the algebra of placeValue, and how it meets Nat.digits. -/

namespace Sys2Proof.Machine

@[simp] theorem placeValue_nil (base : Nat) : placeValue base [] = 0 := rfl

theorem placeValue_cons (base d : Nat) (ds : List Nat) :
    placeValue base (d :: ds) = d * base ^ ds.length + placeValue base ds := rfl

theorem placeValue_append (base : Nat) (xs ys : List Nat) :
    placeValue base (xs ++ ys) = placeValue base xs * base ^ ys.length + placeValue base ys := by
  induction xs with
  | nil => simp
  | cons x xs ih => simp only [List.cons_append, placeValue_cons, ih, List.length_append, pow_add]; ring

theorem placeValue_replicate_zero (base n : Nat) : placeValue base (List.replicate n 0) = 0 := by
  induction n with
  | zero => rfl
  | succ n ih => simp [List.replicate_succ, placeValue_cons, ih]

/-- A string of digits below the base is below the next power. -/
theorem placeValue_lt {base : Nat} {ds : List Nat} (h : ∀ d ∈ ds, d < base) : placeValue base ds < base ^ ds.length := by
  induction ds with
  | nil => simp
  | cons d ds ih =>
    have h1 := ih fun e he => h e (by simp [he])
    have h2 : d + 1 ≤ base := h d (by simp)
    calc d * base ^ ds.length + placeValue base ds < d * base ^ ds.length + base ^ ds.length := by omega
      _ = (d + 1) * base ^ ds.length := by ring
      _ ≤ base * base ^ ds.length := Nat.mul_le_mul_right _ h2
      _ = base ^ (d :: ds).length := by rw [List.length_cons, pow_succ]; ring

/-- Our digit strings are Mathlib's, read from the other end. -/
theorem placeValue_eq_ofDigits (base : Nat) (ds : List Nat) : placeValue base ds = Nat.ofDigits base ds.reverse := by
  induction ds with
  | nil => rfl
  | cons d ds ih =>
    rw [List.reverse_cons, Nat.ofDigits_append, Nat.ofDigits_singleton, List.length_reverse, placeValue_cons, ih]
    ring

theorem placeValue_b58 (v : Nat) : placeValue 58 (b58 v) = v := by
  rw [placeValue_eq_ofDigits, b58, List.reverse_reverse, Nat.ofDigits_digits]

theorem b58_lt {v d : Nat} (h : d ∈ b58 v) : d < 58 := Nat.digits_lt_base (by omega) (List.mem_reverse.1 h)

/-- A digit string without a leading zero is b58 of its value. -/
theorem b58_placeValue {ds : List Nat} (h : ∀ d ∈ ds, d < 58) (h0 : ∀ d, ds.head? = some d → d ≠ 0) :
    b58 (placeValue 58 ds) = ds := by
  rw [placeValue_eq_ofDigits, b58, Nat.digits_ofDigits 58 (by omega), List.reverse_reverse]
  · intro d hd; exact h d (List.mem_reverse.1 hd)
  · intro hne
    have hne' : ds ≠ [] := by simpa using hne
    rw [List.getLast_reverse]
    exact h0 _ (List.head?_eq_some_head hne')

/-- b58 has at most `k` digits exactly when the value is below `58^k`. -/
theorem b58_length_le {v k : Nat} : (b58 v).length ≤ k ↔ v < 58 ^ k := by
  rw [b58, List.length_reverse]
  exact Nat.digits_length_le_iff (by omega) v

/-- Equal-length digit strings below the base with the same value are the same string. -/
theorem placeValue_inj {base : Nat} {xs ys : List Nat} (hl : xs.length = ys.length)
    (hx : ∀ d ∈ xs, d < base) (hy : ∀ d ∈ ys, d < base) (h : placeValue base xs = placeValue base ys) : xs = ys := by
  induction xs generalizing ys with
  | nil => cases ys <;> simp_all
  | cons x xs ih =>
    cases ys with
    | nil => simp at hl
    | cons y ys =>
      simp only [List.length_cons, Nat.add_right_cancel_iff] at hl
      have hx' := placeValue_lt fun d hd => hx d (List.mem_cons_of_mem _ hd)
      have hy' := placeValue_lt fun d hd => hy d (List.mem_cons_of_mem _ hd)
      simp only [placeValue_cons, hl] at h hx'
      have hxy : x = y := by
        have e1 := Nat.add_div_of_dvd_right (b := placeValue base xs) (Dvd.intro_left x (rfl : x * base ^ ys.length = _))
        have e2 := Nat.add_div_of_dvd_right (b := placeValue base ys) (Dvd.intro_left y (rfl : y * base ^ ys.length = _))
        have hp : 0 < base ^ ys.length := by omega
        rw [Nat.mul_div_cancel _ hp, Nat.div_eq_of_lt hx'] at e1
        rw [Nat.mul_div_cancel _ hp, Nat.div_eq_of_lt hy'] at e2
        rw [h] at e1
        omega
      subst hxy
      rw [ih hl (fun d hd => hx d (List.mem_cons_of_mem _ hd)) (fun d hd => hy d (List.mem_cons_of_mem _ hd)) (by omega)]

/-- The powers of `w` from the `(n-1)`-th down to the 0-th. -/
def powersDown (w : Nat) : Nat → List Nat
  | 0 => []
  | n + 1 => w ^ n :: powersDown w n

/-- A sum of products with falling powers is a digit string's value. -/
theorem sum_powersDown (w : Nat) (xs : List Nat) :
    (List.zipWith (· * ·) xs (powersDown w xs.length)).sum = placeValue w xs := by
  induction xs with
  | nil => rfl
  | cons x xs ih => simp [powersDown, placeValue_cons, ih]

theorem lzd_le {α : Type} (P : α → Bool) (x : List α) : lzd P x ≤ x.length := by
  induction x with
  | nil => simp [lzd]
  | cons a x ih => simp only [lzd]; split <;> simp; omega

/-- The leading elements that LZD counts all satisfy the predicate, and the next one, if there is one, does not. -/
theorem lzd_spec {α : Type} (P : α → Bool) (x : List α) :
    (∀ y ∈ x.take (lzd P x), P y = true) ∧ ∀ y, (x.drop (lzd P x)).head? = some y → P y = false := by
  induction x with
  | nil => simp [lzd]
  | cons a x ih =>
    simp only [lzd]
    split
    · rename_i h
      simpa [h] using ih
    · rename_i h
      simpa using h

/-- LZD splits an array into the run it counts and a rest that does not continue it. -/
theorem lzd_append {α : Type} {P : α → Bool} {xs ys : List α} (hx : ∀ x ∈ xs, P x = true)
    (hy : ∀ y, ys.head? = some y → P y = false) : lzd P (xs ++ ys) = xs.length := by
  induction xs with
  | nil =>
    cases ys with
    | nil => rfl
    | cons y ys => simp [lzd, hy y rfl]
  | cons x xs ih =>
    have := ih fun z hz => hx z (by simp [hz])
    simp [lzd, hx x (by simp), this]

/-- The leading zeros as a run in front of the rest. -/
theorem lzdZeros_split (x : List Byte) :
    x = List.replicate (lzdZeros x) 0x00#8 ++ x.drop (lzdZeros x) := by
  have h := (lzd_spec (· == 0x00#8) x).1
  have hl : (x.take (lzdZeros x)).length = lzdZeros x := by simp [lzdZeros, lzd_le]
  conv_lhs => rw [← List.take_append_drop (lzdZeros x) x]
  congr 1
  exact List.eq_replicate_of_mem (fun y hy => by simpa using h y hy) |>.trans (by rw [hl])

end Sys2Proof.Machine
end

