-- ==== Sys2Proof/Laws/Datapath.lean ====
section
/-! SUPPORT. The 64-bit datapath under bounds: what one multiply-accumulate row, one batch, one carry chain, one limb and one digit
group compute when no accumulator wraps. The bounds themselves are computed by functions that decide can run on the tables. -/

namespace Sys2Proof.Machine

theorem Fits.length_eq {acc : List Acc} {bs : List Nat} (h : Fits acc bs) : acc.length = bs.length := List.Forall₂.length_eq h

theorem fits_replicate_zero (n : Nat) : Fits (List.replicate n 0) (List.replicate n 0) := by
  induction n with
  | zero => exact .nil
  | succ n ih => exact .cons (by simp) ih

/-- The bounds after one row whose factor is at most `X`. -/
def boundRow (X : Nat) (bs : List Nat) (row : List Limb) : List Nat :=
  List.zipWith (fun b t => b + X * t.toNat) bs row

/-- The bounds after a batch whose factors are at most `Xs`. -/
def boundBatch : List Nat → List (List Limb) → List Nat → List Nat
  | X :: Xs, row :: rows, bs => boundBatch Xs rows (boundRow X bs row)
  | _, _, bs => bs

/-- Every bound on the way is below 2^64, and every row is as long as the accumulators. -/
def batchFits : List Nat → List (List Limb) → List Nat → Bool
  | X :: Xs, row :: rows, bs =>
    row.length == bs.length && (boundRow X bs row).all (· < 2 ^ 64) && batchFits Xs rows (boundRow X bs row)
  | _, _, _ => true

/-- One 64-bit multiply-accumulate that does not wrap is the exact one. -/
theorem toNat_mac {a x : Acc} {t : Limb} {b X : Nat} (ha : a.toNat ≤ b) (hx : x.toNat ≤ X) (h : b + X * t.toNat < 2 ^ 64) :
    (a + x * t.setWidth 64).toNat = a.toNat + x.toNat * t.toNat := by
  have h1 : x.toNat * t.toNat ≤ X * t.toNat := Nat.mul_le_mul_right _ hx
  have ht : t.toNat % 2 ^ 64 = t.toNat := Nat.mod_eq_of_lt (by have := t.isLt; omega)
  rw [BitVec.toNat_add, BitVec.toNat_mul, BitVec.toNat_setWidth, ht,
    Nat.mod_eq_of_lt (a := x.toNat * t.toNat) (by omega), Nat.mod_eq_of_lt (by omega)]

theorem macRow_spec (base : Nat) {x : Acc} {X : Nat} {acc : List Acc} {bs : List Nat} {row : List Limb}
    (hx : x.toNat ≤ X) (hf : Fits acc bs) (hl : row.length = bs.length) (hb : ∀ c ∈ boundRow X bs row, c < 2 ^ 64) :
    Fits (macRow x acc row) (boundRow X bs row) ∧
      placeValue base ((macRow x acc row).map BitVec.toNat) =
        placeValue base (acc.map BitVec.toNat) + x.toNat * placeValue base (row.map BitVec.toNat) := by
  induction hf generalizing row with
  | nil => cases row with
    | nil => exact ⟨.nil, by simp [macRow]⟩
    | cons t row => simp at hl
  | @cons a b acc bs hab hf ih =>
    cases row with
    | nil => simp at hl
    | cons t row =>
      simp only [List.length_cons, Nat.add_right_cancel_iff] at hl
      simp only [boundRow, List.zipWith_cons_cons, List.mem_cons, forall_eq_or_imp] at hb
      obtain ⟨h1, h2⟩ := ih hl hb.2
      have ht := toNat_mac hab hx hb.1
      have hlen : (macRow x acc row).length = acc.length := by simp [macRow, hf.length_eq, hl]
      constructor
      · refine .cons ?_ h1
        rw [ht]
        exact Nat.add_le_add hab (Nat.mul_le_mul_right _ hx)
      · show placeValue base ((a + x * t.setWidth 64).toNat :: (macRow x acc row).map BitVec.toNat) = _
        rw [placeValue_cons, ht, h2, List.map_cons, List.map_cons, placeValue_cons, placeValue_cons]
        simp only [List.length_map, hlen, hl, hf.length_eq]
        ring

/-- A batch that fits adds the factors' products with the rows' values. -/
theorem decBatch_spec (base : Nat) {xs : List Acc} {Xs : List Nat} {rows : List (List Limb)} {acc : List Acc} {bs : List Nat}
    (hx : Fits xs Xs) (hf : Fits acc bs) (hb : batchFits Xs rows bs = true) :
    Fits (decBatch xs rows acc) (boundBatch Xs rows bs) ∧
      placeValue base ((decBatch xs rows acc).map BitVec.toNat) = placeValue base (acc.map BitVec.toNat) +
        (List.zipWith (· * ·) (xs.map BitVec.toNat) (rows.map fun r => placeValue base (r.map BitVec.toNat))).sum := by
  induction hx generalizing rows acc bs with
  | nil => exact ⟨by simpa [decBatch, boundBatch] using hf, by simp [decBatch]⟩
  | @cons x X xs Xs hxX hx ih =>
    cases rows with
    | nil => exact ⟨by simpa [decBatch, boundBatch] using hf, by simp [decBatch]⟩
    | cons row rows =>
      simp only [batchFits, Bool.and_eq_true, beq_iff_eq, List.all_eq_true, decide_eq_true_eq] at hb
      obtain ⟨⟨hl, h64⟩, hrest⟩ := hb
      obtain ⟨hf', hv⟩ := macRow_spec base hxX hf hl h64
      obtain ⟨h1, h2⟩ := ih hf' hrest
      refine ⟨h1, ?_⟩
      simp only [decBatch, h2, hv, List.map_cons, List.zipWith_cons_cons, List.sum_cons]
      ring

/-- The encode batch is the decode batch of rows with a leading zero: accumulator 0 gets no product. -/
theorem encBatch_eq_decBatch (xs : List Limb) (rows : List (List Limb)) (acc : List Acc) :
    encBatch xs rows acc = decBatch (xs.map (BitVec.setWidth 64)) (rows.map (0#32 :: ·)) acc := by
  induction xs generalizing rows acc with
  | nil => cases rows <;> rfl
  | cons x xs ih =>
    cases rows with
    | nil => rfl
    | cons row rows =>
      simp only [encBatch, List.map_cons, decBatch, ih]
      congr 1
      cases acc with
      | nil => rfl
      | cons a acc => simp [macEnc, macRow]

theorem fits_limbs (xs : List Limb) : Fits (xs.map (BitVec.setWidth 64)) (List.replicate xs.length (2 ^ 32 - 1)) := by
  induction xs with
  | nil => exact .nil
  | cons x xs ih =>
    refine .cons ?_ ih
    have := x.isLt
    rw [BitVec.toNat_setWidth, Nat.mod_eq_of_lt (by omega)]
    omega

/-- The bound of the carry out of accumulators with these bounds. -/
def carryBound (base : Nat) : List Nat → Nat
  | [] => 0
  | b :: bs => (b + carryBound base bs) / base

/-- No addition of the carry chain reaches 2^64. -/
def carryFits (base : Nat) : List Nat → Bool
  | [] => true
  | b :: bs => decide (b + carryBound base bs < 2 ^ 64) && carryFits base bs

/-- The two halves of a carry step in a base: quotient and remainder. -/
structure CarryBase (base : Nat) (hi lo : Acc → Acc) : Prop where
  hi : ∀ a, (hi a).toNat = a.toNat / base
  lo : ∀ a, (lo a).toNat = a.toNat % base

theorem carryBase_r1 : CarryBase (58 ^ 5) divR1 modR1 where
  hi a := by simp [divR1, r1div, BitVec.toNat_udiv]
  lo a := by simp [modR1, r1div, BitVec.toNat_umod]

theorem carryBase_limb : CarryBase (2 ^ 32) (· >>> 32) (· &&& 0xFFFFFFFF#64) where
  hi a := by simp [Nat.shiftRight_eq_div_pow]
  lo a := by
    rw [BitVec.toNat_and]
    exact Nat.and_two_pow_sub_one_eq_mod a.toNat 32

/-- The carry chain keeps the value, leaves every element below the base, and its carry out is at most its bound. -/
theorem carryUp_spec {base : Nat} {hi lo : Acc → Acc} (hc : CarryBase base hi lo) (h0 : 0 < base) {l : List Acc} {bs : List Nat}
    (hf : Fits l bs) (hb : carryFits base bs = true) :
    (carryUp hi lo l).1.toNat * base ^ l.length + placeValue base ((carryUp hi lo l).2.map BitVec.toNat) =
        placeValue base (l.map BitVec.toNat) ∧
      (carryUp hi lo l).2.length = l.length ∧ (∀ x ∈ (carryUp hi lo l).2, x.toNat < base) ∧
      (carryUp hi lo l).1.toNat ≤ carryBound base bs := by
  induction hf with
  | nil => simp [carryUp]
  | @cons a b l bs hab hf ih =>
    simp only [carryFits, Bool.and_eq_true, decide_eq_true_eq] at hb
    obtain ⟨hv, hl, hlt, hcb⟩ := ih hb.2
    have hadd : (a + (carryUp hi lo l).1).toNat = a.toNat + (carryUp hi lo l).1.toNat := by
      rw [BitVec.toNat_add, Nat.mod_eq_of_lt (by omega)]
    refine ⟨?_, by simp [carryUp, hl], ?_, ?_⟩
    · simp only [carryUp, List.map_cons, placeValue_cons, List.length_cons, List.length_map, hl, hc.hi, hc.lo, hadd, ← hv, pow_succ]
      have := Nat.div_add_mod (a.toNat + (carryUp hi lo l).1.toNat) base
      generalize (a.toNat + (carryUp hi lo l).1.toNat) / base = q at *
      generalize (a.toNat + (carryUp hi lo l).1.toNat) % base = r at *
      have e : (base * q + r) * base ^ l.length = (a.toNat + (carryUp hi lo l).1.toNat) * base ^ l.length := by rw [this]
      nlinarith [e]
    · intro x hx
      simp only [carryUp, List.mem_cons] at hx
      rcases hx with rfl | hx
      · rw [hc.lo]; exact Nat.mod_lt _ h0
      · exact hlt x hx
    · simp only [carryUp, hc.hi, hadd, carryBound]
      exact Nat.div_le_div_right (by omega)

/-- Normalization keeps the value and the length, and leaves every element but the first below the base. -/
theorem normalize_spec {base : Nat} {hi lo : Acc → Acc} (hc : CarryBase base hi lo) (h0 : 0 < base) {l : List Acc} {bs : List Nat}
    (hf : Fits l bs) (hb : carryFits base bs = true) :
    placeValue base ((normalize hi lo l).map BitVec.toNat) = placeValue base (l.map BitVec.toNat) ∧
      (normalize hi lo l).length = l.length ∧ ∀ x ∈ (normalize hi lo l).tail, x.toNat < base := by
  cases hf with
  | nil => simp [normalize]
  | @cons a b l bs hab hf =>
    simp only [carryFits, Bool.and_eq_true, decide_eq_true_eq] at hb
    obtain ⟨hv, hl, hlt, hcb⟩ := carryUp_spec hc h0 hf hb.2
    have hadd : (a + (carryUp hi lo l).1).toNat = a.toNat + (carryUp hi lo l).1.toNat := by
      rw [BitVec.toNat_add, Nat.mod_eq_of_lt (by omega)]
    refine ⟨?_, by simp [normalize, hl], by simpa [normalize] using hlt⟩
    simp only [normalize, List.map_cons, placeValue_cons, List.length_map, hl, hadd, ← hv]
    ring

/-- The value of one packed limb. -/
theorem toNat_packLimb (b0 b1 b2 b3 : Byte) :
    ((b0.setWidth 32 <<< 24) ||| (b1.setWidth 32 <<< 16) ||| (b2.setWidth 32 <<< 8) ||| b3.setWidth 32 : Limb).toNat =
      placeValue 256 [b0.toNat, b1.toNat, b2.toNat, b3.toNat] := by
  have h0 := b0.isLt; have h1 := b1.isLt; have h2 := b2.isLt; have h3 := b3.isLt
  have e : ∀ b : Byte, b.toNat % 2 ^ 32 = b.toNat := fun b => Nat.mod_eq_of_lt (by have := b.isLt; omega)
  simp only [BitVec.toNat_or, BitVec.toNat_shiftLeft, BitVec.toNat_setWidth, e]
  rw [Nat.mod_eq_of_lt (a := b0.toNat <<< 24) (by rw [Nat.shiftLeft_eq]; omega),
    Nat.mod_eq_of_lt (a := b1.toNat <<< 16) (by rw [Nat.shiftLeft_eq]; omega),
    Nat.mod_eq_of_lt (a := b2.toNat <<< 8) (by rw [Nat.shiftLeft_eq]; omega)]
  have e1 : b0.toNat <<< 24 ||| b1.toNat <<< 16 = (b0.toNat * 256 + b1.toNat) <<< 16 := by
    rw [← Nat.shiftLeft_add_eq_or_of_lt (i := 24) (by rw [Nat.shiftLeft_eq]; omega)]
    simp only [Nat.shiftLeft_eq]; omega
  have e2 : (b0.toNat * 256 + b1.toNat) <<< 16 ||| b2.toNat <<< 8 =
      ((b0.toNat * 256 + b1.toNat) * 256 + b2.toNat) <<< 8 := by
    rw [← Nat.shiftLeft_add_eq_or_of_lt (i := 16) (by rw [Nat.shiftLeft_eq]; omega)]
    simp only [Nat.shiftLeft_eq]; omega
  rw [e1, e2, ← Nat.shiftLeft_add_eq_or_of_lt (i := 8) (by omega)]
  simp only [Nat.shiftLeft_eq, placeValue, List.length_cons, List.length_nil]
  omega

/-- The four bytes of a limb have the limb's value. -/
theorem placeValue_limbBytes (x : Limb) : placeValue 256 ((limbBytes x).map BitVec.toNat) = x.toNat := by
  have := x.isLt
  simp only [limbBytes, List.map_cons, List.map_nil, placeValue, List.length_cons, List.length_nil, BitVec.toNat_setWidth,
    BitVec.toNat_ushiftRight, Nat.shiftRight_eq_div_pow]
  omega

/-- The five digits of an accumulator below 58^5 are below 58 and have its value. -/
theorem expandOne_spec {a : Acc} (h : a.toNat < 58 ^ 5) :
    (∀ d ∈ expandOne a, d.toNat < 58) ∧ placeValue 58 ((expandOne a).map BitVec.toNat) = a.toNat := by
  have hd : (expandOne a).map BitVec.toNat =
      [a.toNat / 11316496, a.toNat / 195112 % 58, a.toNat / 3364 % 58, a.toNat / 58 % 58, a.toNat % 58] := by
    simp only [expandOne, List.map_cons, List.map_nil, BitVec.toNat_setWidth, BitVec.toNat_udiv, BitVec.toNat_umod,
      BitVec.toNat_ofNat, Nat.reducePow, Nat.reduceMod, List.cons.injEq, and_true]
    refine ⟨?_, ?_, ?_, ?_, ?_⟩ <;> omega
  refine ⟨fun d hdm => ?_, ?_⟩
  · have : d.toNat ∈ (expandOne a).map BitVec.toNat := List.mem_map_of_mem hdm
    rw [hd] at this
    simp only [List.mem_cons, List.not_mem_nil, or_false] at this
    omega
  · rw [hd]
    simp only [placeValue, List.length_cons, List.length_nil]
    omega

/-- One digit times its weight does not wrap. -/
theorem toNat_digitTerm {d : Byte} {w : Nat} (hd : d.toNat < 58) (hw : w < 2 ^ 32) :
    (d.setWidth 64 * BitVec.ofNat 64 w : Acc).toNat = d.toNat * w := by
  have h : d.toNat * w ≤ 57 * 2 ^ 32 := Nat.mul_le_mul (by omega) (by omega)
  rw [BitVec.toNat_mul, BitVec.toNat_setWidth, BitVec.toNat_ofNat, Nat.mod_eq_of_lt (a := d.toNat) (by omega),
    Nat.mod_eq_of_lt (a := w) (by omega), Nat.mod_eq_of_lt (by omega)]

/-- One recomposed group of five digits. -/
theorem toNat_recomposeOne {d0 d1 d2 d3 d4 : Byte} (h0 : d0.toNat < 58) (h1 : d1.toNat < 58) (h2 : d2.toNat < 58)
    (h3 : d3.toNat < 58) (h4 : d4.toNat < 58) :
    (d0.setWidth 64 * 11316496#64 + d1.setWidth 64 * 195112#64 + d2.setWidth 64 * 3364#64 + d3.setWidth 64 * 58#64
      + d4.setWidth 64 : Acc).toNat = placeValue 58 [d0.toNat, d1.toNat, d2.toNat, d3.toNat, d4.toNat] := by
  have e0 := toNat_digitTerm (w := 11316496) h0 (by norm_num)
  have e1 := toNat_digitTerm (w := 195112) h1 (by norm_num)
  have e2 := toNat_digitTerm (w := 3364) h2 (by norm_num)
  have e3 := toNat_digitTerm (w := 58) h3 (by norm_num)
  have e4 : (d4.setWidth 64 : Acc).toNat = d4.toNat := by
    rw [BitVec.toNat_setWidth, Nat.mod_eq_of_lt (by omega)]
  rw [BitVec.toNat_add_of_lt, BitVec.toNat_add_of_lt, BitVec.toNat_add_of_lt, BitVec.toNat_add_of_lt, e0, e1, e2, e3, e4]
  · simp only [placeValue, List.length_cons, List.length_nil]; omega
  · rw [e0, e1]; omega
  · rw [BitVec.toNat_add_of_lt, e0, e1, e2]
    · omega
    · rw [e0, e1]; omega
  · rw [BitVec.toNat_add_of_lt, BitVec.toNat_add_of_lt, e0, e1, e2, e3]
    · omega
    · rw [e0, e1]; omega
    · rw [BitVec.toNat_add_of_lt, e0, e1, e2]
      · omega
      · rw [e0, e1]; omega
  · rw [BitVec.toNat_add_of_lt, BitVec.toNat_add_of_lt, BitVec.toNat_add_of_lt, e0, e1, e2, e3, e4]
    · omega
    · rw [e0, e1]; omega
    · rw [BitVec.toNat_add_of_lt, e0, e1, e2]
      · omega
      · rw [e0, e1]; omega
    · rw [BitVec.toNat_add_of_lt, BitVec.toNat_add_of_lt, e0, e1, e2, e3]
      · omega
      · rw [e0, e1]; omega
      · rw [BitVec.toNat_add_of_lt, e0, e1, e2]
        · omega
        · rw [e0, e1]; omega

end Sys2Proof.Machine
end

