-- ==== Sys2Proof/Laws/HostAgent.lean ====
section
/-! SUPPORT. Everything one turn of the host can do to the engine, said once: invariants of the step are derived from it. -/

namespace Sys2Proof.Machine

/-- What a host turn may leave of the engine: nothing changed, an issue, a report, or one more input byte; with the latency counted
down by one where no command was issued. `tr` is the trace after. -/
inductive HostEffect (s : State) : State → Prop where
  /-- no engine state changed -/
  | quiet (t : State) (h : s.SameEngine t) (hc : t.countdown = s.countdown - 1) : HostEffect s t
  /-- a legal command was issued (60_exceptions.md R220) -/
  | issued (t : State) (i : Instr) (v : Byte) (hs : s.phase = .idle) (hd : decodeCommand v = .ok i) (hp : t.phase = .busy)
      (ho : t.op = i) (hc : t.cmd = v) (hst : t.status = 0x01#8) (hl : t.outLen = s.outLen) (hm : t.mem = s.mem)
      (htr : t.trace = .wrote 0#10 v :: s.trace) : HostEffect s t
  /-- a reserved byte was reported (60_exceptions.md R221) -/
  | reported (t : State) (v : Byte) (e : DecodeError) (hs : s.phase = .idle) (hd : decodeCommand v = .error e)
      (hp : t.phase = .idle) (ho : t.op = s.op) (hc : t.cmd = v) (hst : t.status = 0x0A#8) (hl : t.outLen = s.outLen)
      (hm : t.mem = s.mem) : HostEffect s t
  /-- one byte of IN_BUF was stored (10_state.md R31) -/
  | stored (t : State) (i : Nat) (v : Byte) (hi : i < bufSize) (hs : s.phase = .idle) (hp : t.phase = .idle) (ho : t.op = s.op)
      (hc : t.cmd = s.cmd) (hst : t.status = s.status) (hl : t.outLen = s.outLen)
      (hm : t.mem = Memory.write s.mem (inBase + i) v) : HostEffect s t

/-- States that differ from `s` only in what is the host's, with one step of latency gone and the same trace. -/
structure HostView (s u : State) : Prop where
  engine : s.SameEngine u
  countdown : u.countdown = s.countdown - 1
  trace : u.trace = s.trace

theorem HostView.read {s u : State} (h : HostView s u) (a : Addr) : HostEffect s (busRead a u).2 := by
  obtain ⟨d, tr, he⟩ := busRead_snd a u
  rw [he]
  exact .quiet _ ⟨h.engine.phase, h.engine.op, h.engine.cmd, h.engine.status, h.engine.outLen, h.engine.mem⟩ h.countdown

theorem HostView.write {s u t : State} (h : HostView s u) {a : Addr} {v : Byte} (hw : busWrite a v u = .next t) : HostEffect s t := by
  obtain ⟨w, hw', rfl⟩ := busWrite_next hw
  have hph := h.engine.phase
  rcases hostWrite_next hw' with ⟨rfl, hs, i, hd, rfl⟩ | ⟨rfl, hs, ⟨e, hd⟩, rfl⟩ | ⟨i, hi, ha, hs, rfl⟩ | ⟨-, rfl⟩
  · exact .issued _ i v (hph ▸ hs) hd rfl rfl rfl rfl h.engine.outLen h.engine.mem (by simp [h.trace])
  · exact .reported _ v e (hph ▸ hs) hd (by simpa using hs) h.engine.op rfl rfl h.engine.outLen h.engine.mem
  · exact .stored _ i v hi (hph ▸ hs) hs h.engine.op h.engine.cmd h.engine.status h.engine.outLen (by simp [h.engine.mem])
  · exact .quiet _ ⟨hph, h.engine.op, h.engine.cmd, h.engine.status, h.engine.outLen, h.engine.mem⟩ h.countdown

theorem HostView.quiet {s u t : State} (h : HostView s u) (he : u.SameEngine t) (hc : t.countdown = u.countdown) : HostEffect s t :=
  .quiet t ⟨he.phase.trans h.engine.phase, he.op.trans h.engine.op, he.cmd.trans h.engine.cmd, he.status.trans h.engine.status,
    he.outLen.trans h.engine.outLen, he.mem.trans h.engine.mem⟩ (hc.trans h.countdown)

theorem jumpTo_next {l : Nat} {s t : State} (h : jumpTo l s = .next t) : ∃ pc, t = { s with hostPc := pc } := by
  unfold jumpTo at h
  split at h
  · exact ⟨_, (Host.Outcome.next.inj h).symm⟩
  · cases h

theorem HostView.stmt {s u t : State} (h : HostView s u) {st : HostStmt} (hr : runStmt st u = .next t) : HostEffect s t := by
  cases st with
  | sb a v =>
    simp only [runStmt] at hr
    split at hr
    · exact h.write hr
    · cases hr
    · cases hr
  | lb x a =>
    simp only [runStmt] at hr
    split at hr
    · rename_i a' _
      cases hr
      obtain ⟨d, tr, he⟩ := busRead_snd a' u
      rw [he]
      exact h.quiet ⟨rfl, rfl, rfl, rfl, rfl, rfl⟩ rfl
    · cases hr
  | issue c => exact h.write hr
  | cmd v =>
    simp only [runStmt] at hr
    split at hr
    · exact h.write hr
    · cases hr
  | label l => cases hr; exact h.quiet ⟨rfl, rfl, rfl, rfl, rfl, rfl⟩ rfl
  | brset x k l =>
    simp only [runStmt] at hr
    split at hr
    · obtain ⟨pc, rfl⟩ := jumpTo_next hr; exact h.quiet ⟨rfl, rfl, rfl, rfl, rfl, rfl⟩ rfl
    · cases hr; exact h.quiet ⟨rfl, rfl, rfl, rfl, rfl, rfl⟩ rfl
  | brne x v l =>
    simp only [runStmt] at hr
    split at hr
    · obtain ⟨pc, rfl⟩ := jumpTo_next hr; exact h.quiet ⟨rfl, rfl, rfl, rfl, rfl, rfl⟩ rfl
    · cases hr; exact h.quiet ⟨rfl, rfl, rfl, rfl, rfl, rfl⟩ rfl
  | mov x e => cases hr; exact h.quiet ⟨rfl, rfl, rfl, rfl, rfl, rfl⟩ rfl
  | getb off n => cases hr; exact h.quiet ⟨rfl, rfl, rfl, rfl, rfl, rfl⟩ rfl

/-- What is the host's own may change without changing the view. -/
theorem HostView.host {s u w : State} (h : HostView s u) (he : u.SameEngine w) (hc : w.countdown = u.countdown)
    (ht : w.trace = u.trace) : HostView s w :=
  ⟨⟨he.phase.trans h.engine.phase, he.op.trans h.engine.op, he.cmd.trans h.engine.cmd, he.status.trans h.engine.status,
    he.outLen.trans h.engine.outLen, he.mem.trans h.engine.mem⟩, hc.trans h.countdown, ht.trans h.trace⟩

theorem HostView.program {s u t : State} (h : HostView s u) (hr : runProgram u = .next t) : HostEffect s t := by
  unfold runProgram at hr
  split at hr
  · refine HostView.stmt ?_ hr
    exact h.host ⟨rfl, rfl, rfl, rfl, rfl, rfl⟩ rfl rfl
  · split at hr
    · refine HostView.stmt ?_ hr
      exact h.host ⟨rfl, rfl, rfl, rfl, rfl, rfl⟩ rfl rfl
    · cases hr; exact h.quiet ⟨rfl, rfl, rfl, rfl, rfl, rfl⟩ rfl

/-- The turn's start: the oldest input gone and one step of latency passed. -/
theorem HostView.start (s : State) (rest : List Input) : HostView s (tick { s with inputs := rest }) :=
  ⟨⟨rfl, rfl, rfl, rfl, rfl, rfl⟩, rfl, rfl⟩

/-- Everything a host turn that goes on can do to the engine. -/
theorem hostTurn_effect {s t : State} (h : hostTurn s = .next t) (hr : s.inputs.head? ≠ some .reset) : HostEffect s t := by
  unfold hostTurn at h
  split at h
  · rcases hostAccess_next h with ⟨a, rfl, rfl⟩ | ⟨a, v, rfl, hw⟩
    · exact (HostView.start s _).read a
    · exact (HostView.start s _).write hw
  · exact (HostView.start s _).program h
  · rename_i heq; simp [heq] at hr
  · exact (HostView.start s s.inputs).program h

/-- Everything a step that goes on can be (60_exceptions.md R244). -/
theorem step_next {s t : State} (h : step s = .next t) :
    (nextEvent s = .reset ∧ t = resetEvent s) ∨
    (nextEvent s = .complete ∧ s.phase = .busy ∧ s.countdown = 0 ∧ exec s.op s = .next t) ∨
    (nextEvent s = .host ∧ (s.phase = .idle ∨ s.countdown ≠ 0) ∧ HostEffect s t) := by
  unfold step at h
  cases he : nextEvent s with
  | reset => simp only [he, Host.Outcome.next.injEq] at h; exact .inl ⟨rfl, h.symm⟩
  | complete =>
    simp only [he] at h
    simp only [nextEvent] at he
    split_ifs at he with h1 h2
    simp only [completionDue, Bool.and_eq_true, beq_iff_eq] at h2
    exact .inr (.inl ⟨rfl, h2.1, h2.2, h⟩)
  | host =>
    simp only [he] at h
    simp only [nextEvent] at he
    split_ifs at he with h1 h2
    refine .inr (.inr ⟨rfl, ?_, hostTurn_effect h fun hc => h1 (by simp [resetWaits, hc])⟩)
    simp only [completionDue, Bool.and_eq_true, beq_iff_eq, not_and] at h2
    cases hp : s.phase with
    | idle => exact .inl rfl
    | busy => exact .inr (h2 hp)

theorem lt_labelAbove {l : Nat} {ls : List Nat} (h : l ∈ ls) : l < labelAbove ls := by
  induction ls with
  | nil => cases h
  | cons k ls ih =>
    simp only [labelAbove]
    rcases List.mem_cons.1 h with rfl | h
    · omega
    · have := ih h
      omega

/-- A fresh label is none that a line of the program places or branches to (30_encoding.md R90). -/
theorem lt_freshLabel {p : List HostLine} {x : HostLine} {l : Nat} (hx : x ∈ p) (hl : l ∈ lineLabels x) : l < freshLabel p :=
  lt_labelAbove (List.mem_flatMap.2 ⟨x, hx, hl⟩)

end Sys2Proof.Machine
end

