-- ==== Sys2Proof/Laws/PerInstr.lean ====
section
/-! SUPPORT. The statements made for each instruction as syntax. -/

namespace Sys2Proof.Laws.Encoding

/-- The command is well formed, its byte carries its OP, SZ and RSVD fields, and those fields fit no other byte
(30_encoding.md R81, R83). -/
def Statement (i : Instr) : Prop :=
  i.wf = true ∧ splitCommand (encodeByte i) = i.fields ∧ ∀ b, splitCommand b = i.fields → b = encodeByte i

theorem packCommand_splitCommand (b : Byte) : packCommand (splitCommand b) = b := by
  have h : ∀ n < 256, packCommand (splitCommand (BitVec.ofNat 8 n)) = BitVec.ofNat 8 n := by decide +kernel
  simpa using h b.toNat b.isLt

theorem of_fields {i : Instr} (h : splitCommand (encodeByte i) = i.fields) (hw : i.wf = true) : Statement i :=
  ⟨hw, h, fun b hb => by rw [← packCommand_splitCommand b, hb, ← h, packCommand_splitCommand]⟩

theorem enc32 : Statement .enc32 := of_fields rfl rfl

theorem enc64 : Statement .enc64 := of_fields rfl rfl

theorem dec32 : Statement .dec32 := of_fields rfl rfl

theorem dec64 : Statement .dec64 := of_fields rfl rfl

end Sys2Proof.Laws.Encoding
end

