-- ==== Sys2Proof/Tests/Slice0.lean ====
section
/-! SUPPORT. Tests of single steps with results from 95_test_vectors.md, the smoke test of the well-formedness checks, decodings of
words written out from 30_encoding.md R81, and for every statement with hypotheses a witness that meets them. -/

namespace Sys2Proof.Tests

open Sys2Proof Sys2Proof.Machine

/-! Decoding: RSVD in bits 7:3, SZ in bit 2, OP in bits 1:0 (30_encoding.md R81, R83) -/

theorem test_decode_enc32 : decode [0b00000_0_01#8] = .ok (.enc32, []) := by decide
theorem test_decode_enc64 : decode [0b00000_1_01#8, 0xAA#8] = .ok (.enc64, [0xAA#8]) := by decide
theorem test_decode_dec32 : decode [0b00000_0_10#8] = .ok (.dec32, []) := by decide
theorem test_decode_dec64 : decode [0b00000_1_10#8] = .ok (.dec64, []) := by decide

/-- 95_test_vectors.md K5: reserved bytes. -/
theorem test_decode_reserved : ∀ b ∈ [0x00#8, 0x03#8, 0x04#8, 0x07#8, 0x09#8, 0x0D#8, 0x81#8, 0xFF#8],
    ∀ i ∈ [Instr.enc32, .enc64, .dec32, .dec64], decodeCommand b ≠ .ok i := by decide

/-- Each command's row of spec/opcode_table.json, as the host numbers its bits. -/
theorem test_table_words : decodeTableWord 8 1 = some .enc32 ∧ decodeTableWord 8 5 = some .enc64 ∧
    decodeTableWord 8 2 = some .dec32 ∧ decodeTableWord 8 6 = some .dec64 := by decide

/-! Well-formedness: one ill-formed term for each check -/

theorem smoke_opLegal : ({ op := 0b11, sz := 0, rsvd := 0 } : CommandFields).wf = false := by decide
theorem smoke_rsvdZero : ({ op := 0b01, sz := 0, rsvd := 1 } : CommandFields).wf = false := by decide
theorem smoke_labelsUnique : programWf [.label 0, .label 0] = false := by decide
theorem smoke_targetsPlaced : programWf [.label 0, .brset .r 0 1] = false := by decide
theorem smoke_wellFormed : programWf (expandProgram [.puts 0 [0x32#8], .stmt (.issue .dec32), .wait, .wait, .gets, .copytxt]) = true := by
  decide

/-- A branch to a label that the program does not place goes to no loop of a WAIT (30_encoding.md R90, "a fresh label"). -/
theorem smoke_freshLabel : programWf (expandProgram [.stmt (.brset .r 0 0), .wait]) = false := by decide

/-! Small states -/

/-- A state whose IN_BUF holds `b` from index 0. -/
def withInput (b : List Byte) (s : State) : State := { s with mem := Memory.writeBytes s.mem inBase b }

/-- The engine busy with `i`, with `n` host steps left. -/
def busyWith (i : Instr) (n : Nat) : State :=
  { State.reset with phase := .busy, op := i, cmd := encodeByte i, status := 0x01#8, countdown := n }

/-- OUT_LEN, STATUS and the bytes of OUT_BUF that have a value, with their addresses. -/
def results : Host.Outcome State Fault Refusal → Option (RegValue × Byte × List Host.Cell)
  | .next t => some (t.outLen, t.status, t.mem.filter fun c => outBase ≤ c.1)
  | _ => none

/-- The bytes `b` at rising addresses from OUT_BUF[0]. -/
def outCells (b : List Byte) : List Host.Cell := b.zipIdx.map fun p => (0x200 + p.2, p.1)

/-- The length, the status and the first four bytes only. -/
def firstFour (r : Option (RegValue × Byte × List Host.Cell)) : Option (RegValue × Byte × List Host.Cell) :=
  r.map fun x => (x.1, x.2.1, x.2.2.take 4)

/-! One completion each (95_test_vectors.md sections 3 and 4) -/

/-- E2, with the terminator (42_encode.md R175). -/
theorem test_enc32_one : results (exec .enc32 (withInput (List.replicate 31 0x00#8 ++ [0x01#8]) State.reset)) =
    some (.defined 0x20#8, 0x02#8, outCells (List.replicate 31 0x31#8 ++ [0x32#8, 0x00#8])) := by decide +kernel

/-- E6, the digit boundary at 58. -/
theorem test_enc32_58 : results (exec .enc32 (withInput (List.replicate 31 0x00#8 ++ [0x3A#8]) State.reset)) =
    some (.defined 0x21#8, 0x02#8, outCells (List.replicate 31 0x31#8 ++ [0x32#8, 0x31#8, 0x00#8])) := by decide +kernel

/-- E11. -/
theorem test_enc64_one : results (exec .enc64 (withInput (List.replicate 63 0x00#8 ++ [0x01#8]) State.reset)) =
    some (.defined 0x40#8, 0x02#8, outCells (List.replicate 63 0x31#8 ++ [0x32#8, 0x00#8])) := by decide +kernel

/-- E12, the worst case of the mini-reduction: the length and the first characters "67rp". -/
theorem test_enc64_max : firstFour (results (exec .enc64 (withInput (List.replicate 64 0xFF#8) State.reset))) =
    some (.defined 0x58#8, 0x02#8, outCells [0x36#8, 0x37#8, 0x72#8, 0x70#8]) := by decide +kernel

/-- D4. -/
theorem test_dec32_58 : results (exec .dec32 (withInput (List.replicate 31 0x31#8 ++ [0x32#8, 0x31#8, 0x00#8]) State.reset)) =
    some (.unspecified, 0x02#8, outCells (List.replicate 31 0x00#8 ++ [0x3A#8])) := by decide +kernel

/-- D13, an overflow: 44 characters 'z'. -/
theorem test_dec32_overflow : results (exec .dec32 (withInput (List.replicate 44 0x7A#8 ++ [0x00#8]) State.reset)) =
    some (.unspecified, 0x06#8, []) := by decide +kernel

/-- D26. -/
theorem test_dec64_one : results (exec .dec64 (withInput (List.replicate 63 0x31#8 ++ [0x32#8, 0x00#8]) State.reset)) =
    some (.unspecified, 0x02#8, outCells (List.replicate 63 0x00#8 ++ [0x01#8])) := by decide +kernel

/-- D31, the empty text. -/
theorem test_dec64_empty : results (exec .dec64 (withInput [0x00#8] State.reset)) = some (.unspecified, 0x06#8, []) := by
  decide +kernel

/-! Sub-blocks (95_test_vectors.md section 2) -/

/-- S14. -/
theorem test_miniReduce :
    ((miniReduce ((List.replicate 18 0).set 15 9515453252698788270#64 |>.set 16 16903800910049288865#64)).drop 15).take 2 =
      [9515453278452771064#64, 251839073#64] := by decide

/-- S12, S13. -/
theorem test_expand_recompose :
    expand [3361701#64] = [0#8, 17#8, 13#8, 18#8, 21#8] ∧ recompose [0#8, 57#8, 57#8, 57#8, 57#8] = [11316495#64] := by decide

/-- S15, S16. -/
theorem test_normalize : norm32 [0, 0, 0, 0, 0, 0, 1, 0x100000000#64] = [0, 0, 0, 0, 0, 0, 2, 0] ∧
    norm58 [0, 0, 0, 0, 0, 0, 0, 1, 656356768#64] = [0, 0, 0, 0, 0, 0, 0, 2, 0] := by decide

/-! The command protocol (95_test_vectors.md section 6) -/

/-- K4. -/
theorem test_illegal : hostWrite 0x000 0x00#8 { State.reset with status := 0x02#8, cmd := 0x01#8 } =
    .next { State.reset with status := 0x0A#8, cmd := 0x00#8 } := rfl

/-- K10, K11. -/
theorem test_busy_faults : hostWrite 0x000 0x03#8 (busyWith .enc32 1) = .fault (.hostProtocolFault (.cmdWhileBusy 0x03#8)) ∧
    hostWrite 0x158 0x41#8 (busyWith .enc32 1) = .fault (.hostProtocolFault (.inBufWhileBusy 88 0x41#8)) := ⟨rfl, rfl⟩

/-- K13, and K12 as a read that may rely on nothing. -/
theorem test_busy_reads : visible 0x001 (busyWith .enc32 1) = some 0x01#8 ∧
    visible 0x002 { busyWith .enc32 1 with outLen := .defined 0x20#8 } = none := by decide

/-- K15. -/
theorem test_wide : hostAccess (.read 0x100 16) State.reset = .refused (.wideAccess 0x100 16) := rfl

/-- K16: the completion step that follows the issue, by way of withFetchWord. -/
theorem test_uninitialised : step (State.reset.withFetchWord 8 1) = .fault (.uninitialisedInput 0) := rfl

/-- K17: the scan stops at index 1. -/
theorem test_scan_stops : results (step ((withInput [0x31#8, 0x4F#8] State.reset).withFetchWord 8 2)) =
    some (.unspecified, 0x06#8, []) := by decide +kernel

/-- A reserved byte placed by withFetchWord is reported by the next step (K5). -/
theorem test_reserved_step : results (step (State.reset.withFetchWord 8 9)) = some (.unspecified, 0x0A#8, []) := by decide

/-- K19. -/
theorem test_reset_abandons : step { busyWith .enc32 0 with inputs := [.reset] } = .next State.reset := rfl

/-- Two instances: a step of the second leaves the first (60_exceptions.md R242). -/
theorem test_instances : System.stepAt 1 [State.reset, { busyWith .enc32 0 with inputs := [.reset] }] =
    .next [State.reset, State.reset] := rfl

/-! Witnesses: for each statement with hypotheses, states and operands that meet them all, at boundary values of each clause -/

/-- No command byte is 0x03. -/
theorem not_command (i : Instr) : (0x03#8 : Byte) ≠ encodeByte i := by cases i <;> decide

theorem witness_ReservedBytesRunNothing : (0x00#8 ∉ [0x01#8, 0x05#8, 0x02#8, 0x06#8] ∧ 0xFF#8 ∉ [0x01#8, 0x05#8, 0x02#8, 0x06#8]) ∧
    State.reset.phase = .idle ∧ (busyWith .dec64 0).phase = .busy := by decide

theorem witness_AddressMapPlaces : placeOf 0x100 = .inBuf 0 ∧ placeOf 0x158 = .inBuf 88 ∧ placeOf 0x200 = .outBuf 0 ∧
    placeOf 0x258 = .outBuf 88 ∧ ∀ a ∈ [0x003, 0x0FF, 0x159, 0x1FF, 0x259, 0x3FF], placeOf a = .reserved := by decide +kernel

theorem witness_LegalCommandIsIssued : State.reset.phase = .idle ∧ (busyWith .enc32 0).phase = .busy ∧ placeOf 0x002 = .outLen ∧
    placeOf 0x258 = .outBuf 88 := by decide

theorem witness_ReservedCommandIsReported : State.reset.phase = .idle ∧ ∀ i, (0x03#8 : Byte) ≠ encodeByte i := ⟨rfl, not_command⟩

theorem witness_CmdWriteWhileBusyFaults : (busyWith .enc64 3).phase = .busy := rfl

theorem witness_InBufWriteStoresOrFaults : (0 ≤ 88 ∧ 88 ≤ 88) ∧ (busyWith .enc64 3).phase = .busy ∧ State.reset.phase = .idle := by decide

theorem witness_ReadOnlyWritesAreIgnored : ∀ a ∈ ([0x001, 0x002, 0x003, 0x200, 0x3FF] : List Addr),
    placeOf a ≠ .cmd ∧ ∀ i, placeOf a ≠ .inBuf i := by
  simp only [List.mem_cons, List.not_mem_nil, or_false]
  rintro a (rfl | rfl | rfl | rfl | rfl) <;> exact ⟨by decide, fun i h => by cases h⟩

theorem witness_ReservedAddressesHoldNothing : placeOf 0x003 = .reserved ∧ placeOf 0x3FF = .reserved := by decide

/-- An idle state where every place has a value to return. -/
def filled : State := { State.reset with outLen := .defined 0x20#8, mem := [(0x100, 0x31#8), (0x258, 0x00#8)] }

theorem witness_HostReadReturns : placeOf 0x000 = .cmd ∧ placeOf 0x001 = .status ∧ (placeOf 0x002 = .outLen ∧ filled.phase = .idle ∧
    filled.outLen = .defined 0x20#8) ∧ (placeOf 0x100 = .inBuf 0 ∧ inBufAt filled 0 = some 0x31#8) ∧
    (placeOf 0x258 = .outBuf 88 ∧ outBufAt filled 88 = some 0x00#8) ∧ inBufAt filled 88 = none ∧ outBufAt filled 0 = none ∧
    State.reset.outLen = .unspecified ∧ (busyWith .enc32 0).phase = .busy ∧ placeOf 0x3FF = .reserved := by decide +kernel

theorem witness_WideAccessIsRefused : (16 : Nat) ≠ 8 ∧ (0 : Nat) ≠ 8 := by decide

theorem witness_SafeAccesses : (Access.write 0x158 8 0x41).safe State.reset = true ∧
    (Access.write 0x158 8 0x41).safe (busyWith .enc32 0) = false ∧ (Access.read 0x000 8).safe (busyWith .enc32 0) = true := by decide

theorem witness_ResetStateIsAsListed : ∀ a ∈ ([0x002, 0x100, 0x258] : List Addr), placeOf a ≠ .cmd ∧ placeOf a ≠ .status := by decide

theorem witness_ResetTakesPrecedence : ({ busyWith .enc32 0 with inputs := [.reset, .program] } : State).inputs.head? = some .reset := rfl

theorem busyWith_inv (i : Instr) (n : Nat) : (busyWith i n).Inv := by
  constructor
  · exact Memory.wf_nil
  · simp [busyWith, statusBusy]
  all_goals simp [busyWith, State.reset, RegValue.legalLength]

theorem reset_inv : State.reset.Inv := by
  constructor
  · exact Memory.wf_nil
  all_goals simp [State.reset, statusBusy, outBufAt, Memory.read, RegValue.legalLength]

theorem witness_StepRunsTheLatchedCommand : (busyWith .dec32 0).Inv ∧ (busyWith .dec32 0).phase = .busy ∧
    (busyWith .dec32 0).countdown = 0 ∧ (busyWith .dec32 0).inputs.head? ≠ some .reset ∧
    decodeCommand (busyWith .dec32 0).cmd = .ok .dec32 ∧ State.reset.phase = .idle ∧ (busyWith .dec32 1).countdown ≠ 0 :=
  ⟨busyWith_inv .dec32 0, by decide⟩

theorem witness_QueuedAccessIsTheNextHostStep :
    ({ busyWith .dec32 1 with inputs := [.access (.read 0x001 8)] } : State).inputs = [.access (.read 0x001 8)] ∧
    (busyWith .dec32 1).countdown ≠ 0 ∧ State.reset.phase = .idle := by decide

theorem witness_CompletionComesAfterFinitelyManySteps : (busyWith .enc32 2).phase = .busy ∧ (busyWith .enc32 0).phase = .busy := by decide

/-- Busy with a DEC32 of the text of D24. -/
def busyOne (n : Nat) : State := withInput [0x31#8, 0x4F#8] (busyWith .dec32 n)

theorem busyOne_inv (n : Nat) : (busyOne n).Inv := by
  have h := busyWith_inv .dec32 n
  refine ⟨?_, h.busy, h.statusValue, h.latched, ?_, h.success, h.failure, h.illegal, h.length⟩
  · show Memory.wf [(0x100, 0x31#8), (0x101, 0x4F#8)]
    decide
  · simp [busyOne, withInput, busyWith]

theorem busyOne_completes (n : Nat) : ∃ t, exec .dec32 (busyOne n) = .next t ∧ t.status = 0x06#8 ∧ t.phase = .idle := ⟨_, rfl, rfl, rfl⟩

theorem witness_PollingResultDoesNotDependOnLatency : ∃ t, (busyOne 2).phase = .busy ∧
    ({ busyOne 2 with inputs := List.replicate 2 (.access (.read 0x001 8)) } : State).inputs =
      List.replicate (busyOne 2).countdown (.access (.read 0x001 8)) ∧ exec (busyOne 2).op (busyOne 2) = .next t := by
  obtain ⟨t, h, -⟩ := busyOne_completes 2
  exact ⟨t, rfl, rfl, h⟩

/-- A completion step, which clears BUSY. -/
theorem completion_step : ∃ t, step (busyOne 0) = .next t ∧ statusBusy (busyOne 0).status = true ∧ statusBusy t.status = false :=
  ⟨_, rfl, by decide, rfl⟩

/-- An issue step, which sets BUSY. -/
def issueState : State := { State.reset with inputs := [.access (.write 0x000 8 0x01#8)] }

theorem issue_step : ∃ t, step issueState = .next t ∧ statusBusy issueState.status = false ∧ statusBusy t.status = true :=
  ⟨_, rfl, by decide, rfl⟩

theorem issueState_inv : issueState.Inv := by
  have h := reset_inv
  exact ⟨h.memory, h.busy, h.statusValue, h.latched, h.fresh, h.success, h.failure, h.illegal, h.length⟩

theorem witness_BusyChangesOnlyAtIssueCompletionAndReset :
    (issueState.Inv ∧ ∃ t, step issueState = .next t ∧ statusBusy issueState.status = false ∧ statusBusy t.status = true) ∧
    ((busyOne 0).Inv ∧ ∃ t, step (busyOne 0) = .next t ∧ statusBusy (busyOne 0).status = true ∧ statusBusy t.status = false) ∧
    nextEvent (busyOne 0) = .complete ∧ State.reset.phase = .idle :=
  ⟨⟨issueState_inv, issue_step⟩, ⟨busyOne_inv 0, completion_step⟩, by decide⟩

theorem witness_StepKeepsInvariant : (busyOne 0).Inv ∧ ∃ t, step (busyOne 0) = .next t := ⟨busyOne_inv 0, _, rfl⟩

/-- Busy with an ENC32 of 32 zero bytes. -/
def busyZero : State := withInput (List.replicate 32 0x00#8) (busyWith .enc32 0)

theorem witness_EachRegisterHasItsOneWriter :
    (∃ t, step busyZero = .next t ∧ t.outLen ≠ busyZero.outLen ∧ outBufAt t 0 ≠ outBufAt busyZero 0) ∧
    (∃ t, step { State.reset with inputs := [.access (.write 0x158 8 0x41#8)] } = .next t ∧ inBufAt t 88 ≠ inBufAt State.reset 88) ∧
    (∃ t, step issueState = .next t ∧ t.cmd ≠ issueState.cmd) :=
  ⟨⟨_, rfl, by decide +kernel, by decide +kernel⟩, ⟨_, rfl, by decide⟩, ⟨_, rfl, by decide⟩⟩

theorem witness_FlagsPerEvent : State.reset.phase = .idle ∧ (∀ i, (0x03#8 : Byte) ≠ encodeByte i) ∧
    (isEncode .enc32 = true ∧ ∃ t, exec .enc32 busyZero = .next t) ∧ (isEncode .dec32 = false ∧ ∃ t, exec .dec32 (busyOne 0) = .next t) :=
  ⟨rfl, not_command, ⟨rfl, _, rfl⟩, ⟨rfl, _, rfl⟩⟩

theorem witness_InstancesDoNotInteract : System.stepAt 1 [State.reset, { busyWith .enc32 0 with inputs := [.reset] }] =
    .next [State.reset, State.reset] ∧ (0 : Nat) ≠ 1 := ⟨rfl, by decide⟩

/-- Every command completes: an encode whose operand is written, a decode with all of its `E` bytes written, and a decode whose scan
stops at index 0 with nothing else written. -/
theorem witness_EveryCommandCompletes : ReadSetWritten .enc32 (withInput (List.replicate 32 0x00#8) State.reset) ∧
    ReadSetWritten .enc64 (withInput (List.replicate 64 0x00#8) State.reset) ∧
    ReadSetWritten .dec32 (withInput (List.replicate 45 0x31#8) State.reset) ∧
    ReadSetWritten .dec64 (withInput (List.replicate 89 0x31#8) State.reset) ∧ ReadSetWritten .dec32 (withInput [0x00#8] State.reset) := by
  have h45 : ∀ k < 45, inWritten (withInput (List.replicate 45 0x31#8) State.reset) k = true := by decide +kernel
  have h89 : ∀ k < 89, inWritten (withInput (List.replicate 89 0x31#8) State.reset) k = true := by decide +kernel
  refine ⟨?_, ?_, fun k hk _ => h45 k hk, fun k hk _ => h89 k hk, fun k hk hp => ?_⟩
  · show ∀ k < 32, _
    decide +kernel
  · show ∀ k < 64, _
    decide +kernel
  · cases k with
    | zero => rfl
    | succ k =>
      obtain ⟨c, hc, hx⟩ := hp 0 (by omega)
      cases hc
      cases hx

/-- The lowest and the highest index at which a command can stop. -/
theorem witness_UninitialisedInputIsTheLowestIndex : isEncode .enc32 = true ∧ isEncode .dec32 = false ∧
    exec .enc32 (withInput (List.replicate 31 0x00#8) State.reset) = .fault (.uninitialisedInput 31) ∧
    exec .enc64 State.reset = .fault (.uninitialisedInput 0) ∧
    exec .dec32 (withInput (List.replicate 44 0x31#8) State.reset) = .fault (.uninitialisedInput 44) ∧
    exec .dec64 State.reset = .fault (.uninitialisedInput 0) := ⟨rfl, rfl, rfl, rfl, rfl, rfl⟩

theorem inBufHolds_iff {s : State} {b : List Byte} : InBufHolds s b ↔ (List.range b.length).all (fun k => inBufAt s k == b[k]?) = true := by
  simp [InBufHolds]

theorem witness_EncodeWritesCanonicalText : isEncode .enc32 = true ∧ isEncode .enc64 = true ∧
    (List.replicate 32 0xFF#8).length = (commandSize .enc32).bytes ∧ (List.replicate 64 0x00#8).length = (commandSize .enc64).bytes ∧
    InBufHolds (withInput (List.replicate 32 0xFF#8) State.reset) (List.replicate 32 0xFF#8) ∧
    InBufHolds (withInput (List.replicate 64 0x00#8) State.reset) (List.replicate 64 0x00#8) :=
  ⟨rfl, rfl, rfl, rfl, inBufHolds_iff.2 (by decide +kernel), inBufHolds_iff.2 (by decide +kernel)⟩

theorem witness_EncodeAlphabetClosure : isEncode .enc32 = true ∧ (List.replicate 32 0xFF#8).length = (commandSize .enc32).bytes ∧
    InBufHolds (withInput (List.replicate 32 0xFF#8) State.reset) (List.replicate 32 0xFF#8) :=
  ⟨rfl, rfl, inBufHolds_iff.2 (by decide +kernel)⟩

/-- The operands of both sizes, for the statements that ask for a byte string of that length. -/
theorem witness_operandLength : (List.replicate 32 0x00#8).length = Size.n32.bytes ∧ (List.replicate 64 0xFF#8).length = Size.n64.bytes := by
  decide

/-- The empty text is no operand's canonical text. -/
theorem empty_not_canonical (b : List Byte) (hb : b.length = 32) : [] ≠ canonicalText b := by
  intro h
  have h2 := congrArg List.length h
  simp only [canonicalText, List.length_nil, List.length_append, List.length_replicate, List.length_map] at h2
  have hz : lzdZeros b = 0 := by omega
  have hv : intBe b = 0 := by
    have : (b58 (intBe b)).length ≤ 0 := by omega
    simpa using b58_length_le.1 this
  cases b with
  | nil => simp at hb
  | cons c b =>
    have h0 : c.toNat = 0 := by
      rw [intBe, List.map_cons, placeValue_cons] at hv
      by_contra hc
      have := Nat.mul_pos (Nat.pos_of_ne_zero hc) (Nat.pow_pos (n := (b.map BitVec.toNat).length) (show 0 < 256 by omega))
      omega
    have : c = 0x00#8 := BitVec.eq_of_toNat_eq h0
    simp [lzdZeros, lzd, this] at hz

/-- Both clauses: the text of E2, and the empty text, which is nobody's. -/
theorem witness_DecodeAcceptsExactlyCanonicalTexts : isEncode .dec32 = false ∧
    ((∀ c ∈ List.replicate 31 0x31#8 ++ [0x32#8], isTextChar c = true) ∧
      (List.replicate 31 0x31#8 ++ [0x32#8]).length < (commandSize .dec32).encoded ∧
      InBufHolds (withInput (List.replicate 31 0x31#8 ++ [0x32#8, 0x00#8]) State.reset) (List.replicate 31 0x31#8 ++ [0x32#8] ++ [0x00#8]) ∧
      (List.replicate 31 0x00#8 ++ [0x01#8]).length = (commandSize .dec32).bytes ∧
      List.replicate 31 0x31#8 ++ [0x32#8] = canonicalText (List.replicate 31 0x00#8 ++ [0x01#8])) ∧
    (InBufHolds (withInput [0x00#8] State.reset) ([] ++ [0x00#8]) ∧ ∀ b : List Byte, b.length = (commandSize .dec32).bytes → [] ≠ canonicalText b) := by
  refine ⟨rfl, ⟨by decide +kernel, by decide, inBufHolds_iff.2 (by decide +kernel), by decide, ?_⟩, inBufHolds_iff.2 (by decide), empty_not_canonical⟩
  have h : intBe (List.replicate 31 0x00#8 ++ [0x01#8]) = 1 := by decide +kernel
  rw [canonicalText, h, show b58 1 = [1] by simp [b58]]
  decide

theorem scanPasses_of_all {s : State} {k : Nat}
    (h : (List.range k).all (fun j => match inBufAt s j with | some c => isTextChar c | none => false) = true) : ScanPasses s k := by
  intro j hj
  have := List.all_eq_true.1 h j (List.mem_range.2 hj)
  cases hc : inBufAt s j with
  | none => simp [hc] at this
  | some c => exact ⟨c, rfl, by simpa [hc] using this⟩

/-- An invalid character at index 1, and the longest run of valid ones in bounds. -/
theorem witness_DecodeRejectsInvalidAndTooLong : isEncode .dec32 = false ∧
    (1 < (commandSize .dec32).encoded ∧ ScanPasses (busyOne 0) 1 ∧ ∃ c, inBufAt (busyOne 0) 1 = some c ∧ c ≠ 0x00#8 ∧ validChar c = false) ∧
    ScanPasses (withInput (List.replicate 45 0x31#8) State.reset) (commandSize .dec32).encoded :=
  ⟨rfl, ⟨by decide, scanPasses_of_all (by decide), 0x4F#8, by decide, by decide, by decide⟩, scanPasses_of_all (by decide +kernel)⟩

theorem witness_RoundTripThroughTheMachine : (Instr.enc32, Instr.dec32) ∈ [(Instr.enc32, Instr.dec32), (Instr.enc64, Instr.dec64)] ∧
    (List.replicate 32 0x00#8).length = (commandSize .enc32).bytes ∧ InBufHolds busyZero (List.replicate 32 0x00#8) ∧
    ∃ t, exec .enc32 busyZero = .next t ∧ t.outLen = .defined 0x20#8 ∧
      ∀ k ≤ 32, inBufAt (withInput (List.replicate 32 0x31#8 ++ [0x00#8]) State.reset) k = outBufAt t k :=
  ⟨by decide, rfl, inBufHolds_iff.2 (by decide +kernel), _, rfl, by decide +kernel, by decide +kernel⟩

/-- Texts of both sizes at the longest length. -/
theorem witness_textLength : ((∀ c ∈ List.replicate 44 0x7A#8, isTextChar c = true) ∧ (List.replicate 44 0x7A#8).length < Size.n32.encoded) ∧
    ((∀ c ∈ List.replicate 88 0x7A#8, isTextChar c = true) ∧ (List.replicate 88 0x7A#8).length < Size.n64.encoded) := by decide +kernel

/-- States that differ only outside the read set. -/
theorem witness_ResultDependsOnlyOnReadSet : AgreeOnReadSet .enc32 busyZero (withInput (List.replicate 40 0x00#8) State.reset) ∧
    AgreeOnReadSet .dec32 (busyOne 0) (withInput [0x31#8, 0x4F#8, 0x32#8] State.reset) ∧
    (∃ t, exec .dec32 (busyOne 0) = .next t) ∧ exec .dec32 State.reset = .fault (.uninitialisedInput 0) := by
  refine ⟨?_, fun k hk hp => ?_, ⟨_, rfl⟩, rfl⟩
  · show ∀ k < 32, _
    decide +kernel
  · match k with
    | 0 => rfl
    | 1 => rfl
    | k + 2 =>
      obtain ⟨c, hc, hx⟩ := hp 1 (by omega)
      cases hc
      exact absurd hx (by decide)

theorem witness_InverseTableIsAlphabetInverse : (57#8 : Byte).toNat ≤ 57 := by decide

theorem witness_tableRows : (encTable .n64)[15]?.isSome ∧ 15 < Size.n64.limbs ∧ (decTable .n64)[17]?.isSome ∧ 17 < Size.n64.inters := by decide

theorem witness_PackAndUnpackKeepValues : (List.replicate 32 0xFF#8).length = 4 * 8 ∧ pack [0#8, 0#8, 1#8, 2#8] = pack [0#8, 0#8, 1#8, 2#8] ∧
    ∀ x ∈ [0xFFFFFFFF#64, 0x102#64], x.toNat < 2 ^ 32 := ⟨rfl, rfl, by simp⟩

theorem witness_MiniReduceKeepsValue : (List.replicate 18 (1 : Acc)).length = 18 ∧ (List.replicate 18 (1 : Acc))[15]? = some 1 ∧
    (List.replicate 18 (1 : Acc))[16]? = some 1 ∧ (1 : Acc).toNat + (1 : Acc).toNat / 58 ^ 5 < 2 ^ 64 := by decide

/-- T2: the two accumulators before the mini-reduction reach their bounds. -/
theorem witness_EncodeAccumulatorBounds : (List.replicate 8 0xFFFFFFFF#32).length = 8 ∧ (List.replicate 16 0xFFFFFFFF#32).length = 16 ∧
    (encBatch (List.replicate 8 0xFFFFFFFF#32) (encTable64.take 8) (List.replicate 18 0))[15]? = some 9515453252698788270#64 ∧
    (encBatch (List.replicate 8 0xFFFFFFFF#32) (encTable64.take 8) (List.replicate 18 0))[16]? = some 16903800910049288865#64 := by
  decide +kernel

theorem witness_DecodeAccumulatorBounds :
    ((11316495#64 :: List.replicate 8 656356767#64).length = 9 ∧ ∀ a ∈ 11316495#64 :: List.replicate 8 656356767#64, a.toNat ≤ 58 ^ 5 - 1) ∧
    ((195111#64 :: List.replicate 17 656356767#64).length = 18 ∧ ∀ a ∈ 195111#64 :: List.replicate 17 656356767#64, a.toNat ≤ 58 ^ 5 - 1) ∧
    (11316495#64).toNat ≤ 58 ^ 4 - 1 ∧ (195111#64).toNat ≤ 58 ^ 3 - 1 := by simp

theorem witness_PutbStoresTheBytes : 0 + (List.replicate 89 0x31#8).length ≤ 89 ∧ 88 + [0x31#8].length ≤ 89 ∧ State.reset.phase = .idle ∧
    State.reset.inputs = [] := by simp [State.reset]

theorem witness_WaitPollsStatusUntilNotBusy : State.reset.inputs = [] ∧ State.reset.phase = .idle ∧ (busyWith .enc32 3).inputs = [] ∧
    3 ≤ (busyWith .enc32 3).countdown := by decide

end Sys2Proof.Tests
end

section
/-! SUPPORT. What the decoder accepts, what a completion leaves in STATUS, and what a host turn does to BUSY; then O20. -/

namespace Sys2Proof.Machine

@[simp] theorem statusBusy_reset : statusBusy 0x00#8 = false := rfl

@[simp] theorem statusBusy_issued : statusBusy 0x01#8 = true := rfl

@[simp] theorem statusBusy_illegalCommand : statusBusy 0x0A#8 = false := rfl

@[simp] theorem statusBusy_success : statusBusy 0x02#8 = false := rfl

@[simp] theorem statusBusy_failure : statusBusy 0x06#8 = false := rfl

/-- A decoded byte carries the fields of the command it names (30_encoding.md R81, R83). -/
theorem splitCommand_of_decodeCommand {b : Byte} {i : Instr} (h : decodeCommand b = .ok i) : splitCommand b = i.fields := by
  simp only [decodeCommand] at h
  generalize splitCommand b = f at h ⊢
  obtain ⟨op, sz, rsvd⟩ := f
  split_ifs at h with hr hop hsz hop' hsz <;> cases h
  · simp_all [Instr.fields]
  · simp_all [Instr.fields, (BitVec.eq_zero_or_eq_one sz).resolve_left hsz]
  · simp_all [Instr.fields]
  · simp_all [Instr.fields, (BitVec.eq_zero_or_eq_one sz).resolve_left hsz]

/-- The four command bytes are the only ones that decode (30_encoding.md R83). -/
theorem decodeCommand_eq_ok {b : Byte} {i : Instr} : decodeCommand b = .ok i ↔ b = encodeByte i := by
  constructor
  · intro h
    calc b = packCommand (splitCommand b) := (Laws.Encoding.packCommand_splitCommand b).symm
      _ = packCommand i.fields := by rw [splitCommand_of_decodeCommand h]
      _ = encodeByte i := by cases i <;> rfl
  · rintro rfl
    cases i <;> rfl

/-- A legal command byte written to CMD while IDLE issues its command (60_exceptions.md R220). -/
theorem hostWrite_encodeByte {s : State} (i : Instr) (hs : s.phase = .idle) :
    hostWrite 0x000 (encodeByte i) s = .next (issueCommand i (encodeByte i) s) := by
  simp [hostWrite, writeCmd, hs, decodeCommand_eq_ok.2 rfl]

/-- A completion leaves the engine IDLE with STATUS 0x02 or 0x06 (10_state.md R35, 60_exceptions.md R223). -/
theorem exec_next_idle {i : Instr} {s t : State} (h : exec i s = .next t) :
    t.phase = .idle ∧ (t.status = statusSuccess ∨ t.status = statusFailure) := by
  rw [exec_eq_run] at h
  split at h
  · obtain ⟨b, -, rfl⟩ := runEncode_next.1 h
    exact ⟨rfl, .inl rfl⟩
  · rcases runDecode_next.1 h with ⟨x, out, -, -, rfl⟩ | ⟨-, rfl⟩
    · exact ⟨rfl, .inl rfl⟩
    · exact ⟨rfl, .inr rfl⟩

/-- A completion and a reset leave the engine IDLE with BUSY 0 (10_state.md R26). -/
theorem step_clears_busy {s t : State} (h : step s = .next t) (he : nextEvent s = .complete ∨ nextEvent s = .reset) :
    t.phase = .idle ∧ statusBusy t.status = false := by
  rcases step_next h with ⟨-, rfl⟩ | ⟨-, -, -, hx⟩ | ⟨hh, -⟩
  · exact ⟨rfl, by simp⟩
  · obtain ⟨hp, hst | hst⟩ := exec_next_idle hx <;> exact ⟨hp, by simp [hst]⟩
  · simp [hh] at he

/-- A host turn either keeps the phase and BUSY, or it issues the command whose byte it wrote to CMD (10_state.md R26). -/
theorem HostEffect.keeps_busy_or_issues {s t : State} (h : HostEffect s t) (hb : statusBusy s.status = true ↔ s.phase = .busy) :
    (t.phase = s.phase ∧ statusBusy t.status = statusBusy s.status) ∨
    (t.phase = .busy ∧ statusBusy t.status = true ∧
      ∃ i, t.trace = .wrote 0x000 (encodeByte i) :: s.trace ∧ t.op = i ∧ t.cmd = encodeByte i) := by
  cases h with
  | quiet he _ => exact .inl ⟨he.phase, by rw [he.status]⟩
  | issued i v _ hd hp ho hc hst _ _ htr =>
    obtain rfl := decodeCommand_eq_ok.1 hd
    exact .inr ⟨hp, by simp [hst], i, htr, ho, hc⟩
  | reported v e hs _ hp _ _ hst _ _ =>
    have h0 : statusBusy s.status = false := by simpa [hs] using hb
    exact .inl ⟨hp.trans hs.symm, by simp [hst, h0]⟩
  | stored i v _ hs hp _ _ hst _ _ => exact .inl ⟨hp.trans hs.symm, by rw [hst]⟩

/-- Settles O20: a completion or a reset clears BUSY with the phase, and a host turn keeps both or issues a command. -/
theorem busyChangesOnlyAtIssueCompletionAndReset : Obligations.BusyChangesOnlyAtIssueCompletionAndReset := by
  refine ⟨fun s t hinv hstep => ?_, fun s i hs => ⟨_, hostWrite_encodeByte i hs, by simp⟩⟩
  by_cases he : nextEvent s = .complete ∨ nextEvent s = .reset
  · obtain ⟨hp, hb⟩ := step_clears_busy hstep he
    exact ⟨by simp [hp, hb], fun _ h1 => by simp [hb] at h1, fun _ _ => he, fun _ => hb⟩
  · have heff : HostEffect s t := by
      rcases step_next hstep with ⟨hr, -⟩ | ⟨hc, -⟩ | ⟨-, -, h⟩
      · exact absurd (.inr hr) he
      · exact absurd (.inl hc) he
      · exact h
    rcases heff.keeps_busy_or_issues hinv.busy with ⟨hp, hb⟩ | ⟨hp, hb, hissue⟩
    · exact ⟨by rw [hp, hb]; exact hinv.busy, fun h0 h1 => by simp [hb, h0] at h1,
        fun h1 h0 => by simp [hb, h1] at h0, fun h => absurd h he⟩
    · exact ⟨by simp [hp, hb], fun _ _ => hissue, fun _ h0 => by simp [hb] at h0, fun h => absurd h he⟩

end Sys2Proof.Machine
end

section
/-! SUPPORT. What a host access does at a reserved address (20_memory.md R53); then O10. -/

namespace Sys2Proof.Machine

/-- A read of an address with no value to rely on is a draw (00_scope.md R11); the counterpart of `hostRead_of_visible`. -/
theorem hostRead_of_not_visible {a : Addr} {s : State} (h : visible a s = none) :
    hostRead a s = (Config.draw s.draws, { s with draws := s.draws + 1 }) := by
  simp [hostRead, orDraw, takeDraw, h]

theorem visible_of_reserved {a : Addr} (s : State) (h : placeOf a = .reserved) : visible a s = none := by
  simp [visible, h]

theorem hostWrite_of_reserved {a : Addr} (v : Byte) (s : State) (h : placeOf a = .reserved) : hostWrite a v s = .next s := by
  simp [hostWrite, h]

/-- Settles O10: a reserved address never shows a value, so a read there is a draw, and a write there is ignored. -/
theorem reservedAddressesHoldNothing : Obligations.ReservedAddressesHoldNothing := by
  intro s a v h
  exact ⟨hostRead_of_not_visible (visible_of_reserved s h), hostWrite_of_reserved v s h⟩

end Sys2Proof.Machine
end

section
/-! SUPPORT. The decoder on the encoder's bytes and on every other byte, and a CMD write while BUSY or of a reserved byte
(30_encoding.md R83 to R85); then O1, O2 and O3. -/

namespace Sys2Proof.Machine

@[simp] theorem decodeCommand_encodeByte (i : Instr) : decodeCommand (encodeByte i) = .ok i := decodeCommand_eq_ok.2 rfl

/-- The byte of a command carries the OP, SZ and RSVD of its row (30_encoding.md R83). -/
theorem splitCommand_encodeByte (i : Instr) : splitCommand (encodeByte i) = i.fields :=
  splitCommand_of_decodeCommand (decodeCommand_encodeByte i)

/-- Settles O1: the decoder accepts a byte exactly for the command whose byte it is, and that byte carries the command's fields. -/
theorem decoderMatchesCommandTable : Obligations.DecoderMatchesCommandTable :=
  ⟨fun _ _ => decodeCommand_eq_ok, rfl, rfl, rfl, rfl, splitCommand_encodeByte .enc32, splitCommand_encodeByte .enc64,
    splitCommand_encodeByte .dec32, splitCommand_encodeByte .dec64⟩

/-- The decoder rejects exactly the bytes that are no command's (30_encoding.md R84). -/
theorem decodeCommand_eq_error {b : Byte} : (∃ e, decodeCommand b = .error e) ↔ ∀ i, b ≠ encodeByte i := by
  constructor
  · rintro ⟨e, he⟩ i rfl
    simp at he
  · intro hb
    cases hd : decodeCommand b with
    | ok i => exact absurd (decodeCommand_eq_ok.1 hd) (hb i)
    | error e => exact ⟨e, rfl⟩

/-- The first column of the command map lists every command's byte (30_encoding.md R83). -/
theorem encodeByte_mem_commandBytes (i : Instr) : encodeByte i ∈ [0x01#8, 0x05#8, 0x02#8, 0x06#8] := by
  cases i <;> decide

@[simp] theorem statusIllegal_illegalCommand : statusIllegal 0x0A#8 = true := rfl

/-- A reserved byte written to CMD while IDLE is reported (60_exceptions.md R221); the counterpart of `hostWrite_encodeByte`. -/
theorem hostWrite_reservedByte {b : Byte} {s : State} (hb : ∀ i, b ≠ encodeByte i) (hs : s.phase = .idle) :
    hostWrite 0x000 b s = .next (reportIllegal b s) := by
  obtain ⟨e, he⟩ := decodeCommand_eq_error.2 hb
  simp [hostWrite, writeCmd, hs, he]

/-- While BUSY, a write to CMD is a fault before its byte is looked at (60_exceptions.md R222, R235). -/
theorem hostWrite_cmd_of_busy {s : State} (b : Byte) (hs : s.phase = .busy) :
    hostWrite 0x000 b s = .fault (.hostProtocolFault (.cmdWhileBusy b)) := by
  simp [hostWrite, writeCmd, hs]

/-- Settles O2: a byte outside the command map is no command's, so it is rejected, and its write is reported or faults. -/
theorem reservedBytesRunNothing : Obligations.ReservedBytesRunNothing := by
  intro b hb
  have hreserved : ∀ i, b ≠ encodeByte i := by
    rintro i rfl
    exact hb (encodeByte_mem_commandBytes i)
  refine ⟨decodeCommand_eq_error.2 hreserved, fun s hs => ?_, fun s hs => hostWrite_cmd_of_busy b hs⟩
  exact ⟨reportIllegal b s, hostWrite_reservedByte hreserved hs, hs, by simp, rfl, rfl⟩

/-- Decoding consumes exactly the one byte that encoding wrote (30_encoding.md R85). -/
theorem decode_encode_append (i : Instr) (rest : List Byte) : decode (encode i ++ rest) = .ok (i, rest) := by
  simp [encode, decode]

/-- A table word of 8 bits is the byte it was made from. -/
theorem tableBytes_one_toNat (b : Byte) : tableBytes 1 b.toNat = [b] := by
  simp [tableBytes]

theorem decodeTableWord_encodeByte (i : Instr) : decodeTableWord 8 (encodeByte i).toNat = some i := by
  have hdecode : decode (tableBytes (8 / 8) (encodeByte i).toNat) = .ok (i, []) := by
    rw [show 8 / 8 = 1 from rfl, tableBytes_one_toNat]
    exact decode_encode_append i []
  simp [decodeTableWord, hdecode]

/-- Settles O3: the one byte of a command is decoded again, in front of any bytes and as a word of the opcode table. -/
theorem decodeEncodeAgree : Obligations.DecodeEncodeAgree :=
  fun i rest => ⟨rfl, decode_encode_append i rest, decodeTableWord_encodeByte i⟩

end Sys2Proof.Machine
end

section
/-! SUPPORT. The decode datapath on a text in bounds (43_decode.md R191 to R193): its digits, their recomposition, and what the limbs
hold after NORM32; then O50. -/

namespace Sys2Proof.Machine

/-- INVERSE of an alphabet character is a base-58 digit (40_components.md R101). -/
theorem inverse_lt {c : Byte} (h : isTextChar c = true) : (inverse c).toNat < 58 := by
  have hs := (isTextChar_iff.1 h).2
  unfold inverse at hs ⊢
  cases hi : alphabetTable.idxOf? c with
  | none => simp [hi] at hs
  | some d =>
    have hd : d < 58 := (List.findIdx?_eq_some_iff_getElem.1 hi).1
    show (BitVec.ofNat 8 d).toNat < 58
    rw [BitVec.toNat_ofNat, Nat.mod_eq_of_lt (by omega)]
    exact hd

theorem length_decodeRaw {sz : Size} {x : List Byte} (h : x.length < sz.encoded) : (decodeRaw sz x).length = 5 * sz.inters := by
  have hgroups : sz.raw = 5 * sz.inters := by cases sz <;> rfl
  have hroom : sz.encoded ≤ sz.raw := by cases sz <;> decide
  rw [decodeRaw, List.length_append, List.length_replicate, List.length_map]
  omega

theorem decodeRaw_lt (sz : Size) {x : List Byte} (h : ∀ c ∈ x, isTextChar c = true) : ∀ d ∈ decodeRaw sz x, d.toNat < 58 := by
  intro d hd
  rcases List.mem_append.1 hd with hz | hx
  · simp [List.eq_of_mem_replicate hz]
  · obtain ⟨c, hc, rfl⟩ := List.mem_map.1 hx
    exact inverse_lt (h c hc)

/-- The padding does not change the text's value (43_decode.md R191). -/
theorem valRaw_decodeRaw (sz : Size) (x : List Byte) : valRaw (decodeRaw sz x) = textValue x := by
  simp [valRaw, textValue, decodeRaw, placeValue_append, placeValue_replicate_zero]

/-- RECOMPOSE of `n` whole groups of digits: `n` intermediates below 58^5 with the digits' value (40_components.md R119). -/
theorem recompose_spec {n : Nat} {r : List Byte} (hl : r.length = 5 * n) (hd : ∀ d ∈ r, d.toNat < 58) :
    (recompose r).length = n ∧ val58 (recompose r) = valRaw r ∧ ∀ a ∈ recompose r, a.toNat < 58 ^ 5 := by
  induction n generalizing r with
  | zero =>
    obtain rfl := List.length_eq_zero_iff.1 hl
    simp [recompose, val58, valRaw]
  | succ n ih =>
    obtain ⟨d0, d1, d2, d3, d4, r, rfl⟩ : ∃ d0 d1 d2 d3 d4 r', r = d0 :: d1 :: d2 :: d3 :: d4 :: r' := by
      match r, hl with
      | d0 :: d1 :: d2 :: d3 :: d4 :: r', _ => exact ⟨d0, d1, d2, d3, d4, r', rfl⟩
    have hr : r.length = 5 * n := by simpa [Nat.mul_add] using hl
    simp only [List.mem_cons, forall_eq_or_imp] at hd
    obtain ⟨h0, h1, h2, h3, h4, hd⟩ := hd
    obtain ⟨ihl, ihv, ihlt⟩ := ih hr hd
    have hone := toNat_recomposeOne h0 h1 h2 h3 h4
    have hpow : (58 ^ 5) ^ n = 58 ^ r.length := by rw [← pow_mul, hr]
    refine ⟨by simp [recompose, ihl], ?_, ?_⟩
    · have hsplit := placeValue_append 58 [d0.toNat, d1.toNat, d2.toNat, d3.toNat, d4.toNat] (r.map BitVec.toNat)
      rw [List.length_map, ← hpow] at hsplit
      simp only [val58, valRaw] at ihv ⊢
      rw [recompose, List.map_cons, placeValue_cons, List.length_map, ihl, hone, ihv]
      exact hsplit.symm
    · simp only [recompose, List.mem_cons, forall_eq_or_imp, hone]
      exact ⟨placeValue_lt (base := 58) (by simp [h0, h1, h2, h3, h4]), ihlt⟩

/-- A bound for all accumulators, as a list of bounds. -/
theorem fits_replicate {acc : List Acc} {b : Nat} (h : ∀ a ∈ acc, a.toNat ≤ b) : Fits acc (List.replicate acc.length b) := by
  induction acc with
  | nil => exact .nil
  | cons a acc ih => exact .cons (h a (by simp)) (ih fun c hc => h c (by simp [hc]))

/-- The bounds of the decode accumulators when every intermediate is below 58^5. -/
def decBounds (sz : Size) : List Nat :=
  boundBatch (List.replicate sz.inters (58 ^ 5 - 1)) (decTable sz) (List.replicate sz.limbs 0)

theorem decTable_batchFits (sz : Size) :
    batchFits (List.replicate sz.inters (58 ^ 5 - 1)) (decTable sz) (List.replicate sz.limbs 0) = true := by
  cases sz <;> decide +kernel

theorem decBounds_carryFits (sz : Size) : carryFits (2 ^ 32) (decBounds sz) = true := by
  cases sz <;> decide +kernel

theorem length_decBounds (sz : Size) : (decBounds sz).length = sz.limbs := by
  cases sz <;> decide +kernel

/-- The rows of a decode table are the falling powers of 58^5 (41_radix_tables.md R153). -/
theorem decTable_rowValues (sz : Size) :
    (decTable sz).map (fun r => placeValue (2 ^ 32) (r.map BitVec.toNat)) = powersDown (58 ^ 5) sz.inters := by
  cases sz <;> decide +kernel

/-- DEC_TRANSFORM of intermediates below 58^5 does not wrap, and keeps the value (40_components.md R120). -/
theorem decTransform_spec {sz : Size} {inter : List Acc} (hl : inter.length = sz.inters) (hlt : ∀ a ∈ inter, a.toNat < 58 ^ 5) :
    Fits (decTransform sz inter) (decBounds sz) ∧ val32 (decTransform sz inter) = val58 inter := by
  have hx : Fits inter (List.replicate sz.inters (58 ^ 5 - 1)) := hl ▸ fits_replicate fun a ha => Nat.le_pred_of_lt (hlt a ha)
  obtain ⟨hfits, hval⟩ := decBatch_spec (2 ^ 32) hx (fits_replicate_zero sz.limbs) (decTable_batchFits sz)
  refine ⟨hfits, ?_⟩
  rw [val32, decTransform, hval, decTable_rowValues, ← hl, ← List.length_map (f := BitVec.toNat), sum_powersDown]
  simp [val58, placeValue_replicate_zero]

/-- After NORM32 the limbs have the text's value, and all but the first are below 2^32 (43_decode.md R193). -/
theorem decodeLimbs_spec {sz : Size} {x : List Byte} (hx : ∀ c ∈ x, isTextChar c = true) (hl : x.length < sz.encoded) :
    (decodeLimbs sz x).length = sz.limbs ∧ val32 (decodeLimbs sz x) = textValue x ∧
      ∀ a ∈ (decodeLimbs sz x).tail, a.toNat < 2 ^ 32 := by
  obtain ⟨hlen, hval, hlt⟩ := recompose_spec (length_decodeRaw hl) (decodeRaw_lt sz hx)
  obtain ⟨hfits, hdec⟩ := decTransform_spec hlen hlt
  obtain ⟨hnv, hnl, hnt⟩ := normalize_spec carryBase_limb (by norm_num) hfits (decBounds_carryFits sz)
  exact ⟨hnl.trans (hfits.length_eq.trans (length_decBounds sz)),
    hnv.trans (hdec.trans (hval.trans (valRaw_decodeRaw sz x))), hnt⟩

/-- With all other digits below the base, the leading one decides whether the value fits in as many digits. -/
theorem placeValue_cons_lt_iff {base d : Nat} {ds : List Nat} (h : ∀ e ∈ ds, e < base) :
    placeValue base (d :: ds) < base ^ (ds.length + 1) ↔ d < base := by
  have htail := placeValue_lt h
  rw [placeValue_cons, pow_succ']
  refine ⟨fun hlt => ?_, fun hd => ?_⟩
  · exact Nat.lt_of_mul_lt_mul_right (Nat.lt_of_le_of_lt (Nat.le_add_right _ _) hlt)
  · calc d * base ^ ds.length + placeValue base ds < (d + 1) * base ^ ds.length := by rw [Nat.add_one_mul]; omega
      _ ≤ base * base ^ ds.length := Nat.mul_le_mul_right _ hd

/-- `L` limbs and `N` bytes have the same range (00_scope.md R6, R7). -/
theorem limbs_range (sz : Size) : (2 ^ 32) ^ sz.limbs = 256 ^ sz.bytes := by
  cases sz <;> rfl

/-- Settles O50: the limbs have the text's value and only the first can reach 2^32, so it does exactly when the value does not fit. -/
theorem overflowCheckIsExact : Obligations.OverflowCheckIsExact := by
  intro sz x hx hl
  obtain ⟨hlen, hval, htail⟩ := decodeLimbs_spec hx hl
  rw [← hval]
  cases hbin : decodeLimbs sz x with
  | nil => cases sz <;> simp [hbin, Size.limbs] at hlen
  | cons a rest =>
    rw [hbin] at hlen htail
    have hfits : val32 (a :: rest) < 256 ^ sz.bytes ↔ a.toNat < 2 ^ 32 := by
      rw [← limbs_range, ← hlen, val32, List.map_cons, List.length_cons, ← List.length_map (f := BitVec.toNat)]
      exact placeValue_cons_lt_iff (by simpa using htail)
    have hpos : 0 < 256 ^ sz.bytes := by positivity
    have hcheck : a > 0xFFFFFFFF#64 ↔ ¬ a.toNat < 2 ^ 32 := by
      rw [gt_iff_lt, BitVec.lt_def]
      simp only [BitVec.toNat_ofNat, Nat.reducePow, Nat.reduceMod]
      omega
    rw [List.getD_cons_zero, hcheck, ← hfits]
    omega

end Sys2Proof.Machine
end

section
/-! SUPPORT. When a command stops, over the command itself; what a write to CMD or IN_BUF does in each phase, a read of an output
while BUSY, an access of another width, and a step of a system (60_exceptions.md R220 to R233, R242); then O27, O5, O6, O7, O8, O12
and O25. -/

namespace Sys2Proof.Machine

/-- An IN_BUF byte that is not written has no value to read (10_state.md R31). -/
theorem inWritten_eq_false {s : State} {i : Nat} : inWritten s i = false ↔ Memory.read s.mem (inBase + i) = none := by
  simp [inWritten, inBufAt]

/-- An IN_BUF byte that is written has a value to read (10_state.md R31). -/
theorem inWritten_eq_true {s : State} {i : Nat} : inWritten s i = true ↔ (Memory.read s.mem (inBase + i)).isSome := Iff.rfl

/-- No command is refused: each is one of the two runs, and neither refuses (60_exceptions.md R230). -/
theorem exec_not_refused (i : Instr) (s : State) (r : Refusal) : exec i s ≠ .refused r := by
  rw [exec_eq_run]
  split
  · exact runEncode_not_refused _ s r
  · exact runDecode_not_refused _ s r

/-- An encode stops exactly at the lowest unwritten byte of its operand (60_exceptions.md R231). -/
theorem exec_encode_fault {i : Instr} {s : State} {f : Fault} (hi : isEncode i = true) :
    exec i s = .fault f ↔ ∃ k < (commandSize i).bytes,
      f = .uninitialisedInput k ∧ inWritten s k = false ∧ ∀ j < k, inWritten s j = true := by
  rw [exec_eq_run, if_pos hi, runEncode_fault, readBinary_error]
  simp only [Nat.zero_add, inWritten_eq_false, inWritten_eq_true]

/-- A decode stops exactly at an unwritten byte that its scan reaches (60_exceptions.md R231). -/
theorem exec_decode_fault {i : Instr} {s : State} {f : Fault} (hi : isEncode i = false) :
    exec i s = .fault f ↔ ∃ k < (commandSize i).encoded,
      f = .uninitialisedInput k ∧ inWritten s k = false ∧ ScanPasses s k := by
  rw [exec_eq_run, if_neg (by simp [hi]), runDecode_fault, scanText_stop]
  simp only [Nat.zero_add, inWritten_eq_false, ScanPasses, inBufAt]

/-- Settles O27: a run ends early only where its reader of IN_BUF does, at the first unwritten byte in the order of reading. -/
theorem uninitialisedInputIsTheLowestIndex : Obligations.UninitialisedInputIsTheLowestIndex :=
  ⟨exec_not_refused, fun _ _ _ => exec_encode_fault, fun _ _ _ => exec_decode_fault⟩

/-- While BUSY no byte of OUT_LEN or OUT_BUF is to be relied on (20_memory.md R65). -/
theorem visible_output_of_busy {a : Addr} {s : State} (hs : s.phase = .busy)
    (ha : placeOf a = .outLen ∨ ∃ i, placeOf a = .outBuf i) : visible a s = none := by
  rcases ha with ha | ⟨i, ha⟩
  · simp [visible, ha, hs]
  · simp [visible, ha, hs]

/-- Settles O5: the write issues the command, whose effect on each field the laws of `issueCommand` say; an output read while BUSY
has no value to rely on, so it is a draw. -/
theorem legalCommandIsIssued : Obligations.LegalCommandIsIssued := by
  refine ⟨fun s i hs => ⟨_, hostWrite_encodeByte i hs, ?_⟩, fun u a hu ha => hostRead_of_not_visible (visible_output_of_busy hu ha)⟩
  simp

/-- Settles O6: a byte that is no command's is reported, and the report sets CMD and STATUS only. -/
theorem reservedCommandIsReported : Obligations.ReservedCommandIsReported :=
  fun _ _ hs hb => hostWrite_reservedByte hb hs

/-- Settles O7: while BUSY the fault comes before the byte is looked at. -/
theorem cmdWriteWhileBusyFaults : Obligations.CmdWriteWhileBusyFaults :=
  fun _ b hs => hostWrite_cmd_of_busy b hs

/-- A write to the address of `IN_BUF[i]` reaches `IN_BUF[i]` (20_memory.md R52). -/
theorem hostWrite_inBuf {i : Nat} (hi : i ≤ 88) (v : Byte) (s : State) :
    hostWrite (BitVec.ofNat 10 (0x100 + i)) v s = writeInBuf i v s := by
  have hplace : placeOf (BitVec.ofNat 10 (0x100 + i)) = .inBuf i := by
    refine placeOf_eq_inBuf.2 ⟨Nat.lt_succ_of_le hi, ?_⟩
    rw [BitVec.toNat_ofNat, Nat.mod_eq_of_lt (by omega)]
    rfl
  simp [hostWrite, hplace]

theorem writeInBuf_of_busy {s : State} (i : Nat) (v : Byte) (hs : s.phase = .busy) :
    writeInBuf i v s = .fault (.hostProtocolFault (.inBufWhileBusy i v)) := by
  simp [writeInBuf, hs]

theorem writeInBuf_of_idle {s : State} (i : Nat) (v : Byte) (hs : s.phase = .idle) :
    writeInBuf i v s = .next { s with mem := Memory.write s.mem (inBase + i) v } := by
  simp [writeInBuf, hs]

/-- Settles O8: the address is that of `IN_BUF[i]`, whose write is a fault while BUSY and one write to memory while IDLE. -/
theorem inBufWriteStoresOrFaults : Obligations.InBufWriteStoresOrFaults := by
  intro s i v hi
  rw [hostWrite_inBuf hi]
  refine ⟨writeInBuf_of_busy i v, fun hs => ⟨_, writeInBuf_of_idle i v hs, ?_, ?_, fun a ha => ?_, rfl⟩⟩
  · exact Memory.read_write_same s.mem (inBase + i) v
  · simp [inWritten, inBufAt]
  · exact Memory.read_write_other s.mem v ha

/-- Settles O12: both kinds of access look at the width before anything else. -/
theorem wideAccessIsRefused : Obligations.WideAccessIsRefused := by
  intro s a width data hw
  constructor
  · exact if_neg hw
  · exact if_neg hw

/-- Everything that `stepAt k` can do to a system where it goes on: step the engine at index `k`, or nothing where there is none
(60_exceptions.md R242). -/
theorem System.stepAt_next {k : Nat} {sys sys' : System} (h : System.stepAt k sys = .next sys') :
    (sys[k]? = none ∧ sys' = sys) ∨ (∃ s t, sys[k]? = some s ∧ step s = .next t ∧ sys' = sys.set k t) := by
  unfold System.stepAt at h
  cases hk : sys[k]? with
  | none =>
    simp only [hk, Host.Outcome.next.injEq] at h
    exact .inl ⟨rfl, h.symm⟩
  | some s =>
    cases hs : step s with
    | next t =>
      simp only [hk, hs, Host.Outcome.next.injEq] at h
      exact .inr ⟨s, t, rfl, hs, h.symm⟩
    | fault f => simp [hk, hs] at h
    | refused r => simp [hk, hs] at h

/-- Settles O25: a step at index `k` replaces the state there, if there is one, and no other. -/
theorem instancesDoNotInteract : Obligations.InstancesDoNotInteract := by
  intro sys sys' k j h hj
  rcases System.stepAt_next h with ⟨-, rfl⟩ | ⟨s, t, -, -, rfl⟩
  · rfl
  · exact List.getElem?_set_ne hj.symm

end Sys2Proof.Machine
end

section
/-! SUPPORT. Further laws of digit strings: the leading digit as a quotient, groups of digits, a string as zeros in front of b58, and the
rows of a table of falling powers. -/

namespace Sys2Proof.Machine

/-- With all other digits below the base, the leading digit is the quotient by its weight. -/
theorem placeValue_cons_div {base d : Nat} {ds : List Nat} (h : ∀ e ∈ ds, e < base) :
    placeValue base (d :: ds) / base ^ ds.length = d := by
  have hlt := placeValue_lt h
  rw [placeValue_cons, Nat.mul_comm, Nat.mul_add_div (by omega), Nat.div_eq_of_lt hlt, Nat.add_zero]

/-- A normalized array: `n` elements of value `v` in a base, all but the first of them reduced (40_components.md R114, R116). -/
structure Normalized (base n v : Nat) (l : List Acc) : Prop where
  length : l.length = n
  value : placeValue base (l.map BitVec.toNat) = v
  reduced : ∀ x ∈ l.tail, x.toNat < base

/-- The first element of a normalized array is the value's quotient by its weight (40_components.md R114, R116). -/
theorem Normalized.head {base n v : Nat} {l : List Acc} (h : Normalized base n v l) (hn : 0 < n) :
    ∃ x, l.head? = some x ∧ x.toNat = v / base ^ (n - 1) := by
  obtain ⟨hlen, hval, hred⟩ := h
  obtain ⟨x, rest, rfl⟩ := List.exists_cons_of_length_pos (hlen ▸ hn)
  have hdiv := placeValue_cons_div (d := x.toNat) (ds := rest.map BitVec.toNat) (by simpa using hred)
  rw [← List.map_cons, hval, List.length_map, show rest.length = n - 1 by rw [← hlen, List.length_cons, Nat.add_sub_cancel]] at hdiv
  exact ⟨x, rfl, hdiv.symm⟩

/-- A string of groups of `k` digits, each with the value of its element, has the value of the elements in base `base ^ k`. -/
theorem placeValue_flatMap {base k : Nat} {f : Acc → List Byte} {l : List Acc} (hk : ∀ a ∈ l, (f a).length = k)
    (hv : ∀ a ∈ l, placeValue base ((f a).map BitVec.toNat) = a.toNat) :
    (l.flatMap f).length = k * l.length ∧
      placeValue base ((l.flatMap f).map BitVec.toNat) = placeValue (base ^ k) (l.map BitVec.toNat) := by
  induction l with
  | nil => exact ⟨rfl, rfl⟩
  | cons a l ih =>
    simp only [List.mem_cons, forall_eq_or_imp] at hk hv
    obtain ⟨ihl, ihv⟩ := ih hk.2 hv.2
    refine ⟨by rw [List.flatMap_cons, List.length_append, hk.1, ihl, List.length_cons]; ring, ?_⟩
    rw [List.flatMap_cons, List.map_append, placeValue_append, hv.1, ihv, List.length_map, ihl, List.map_cons, placeValue_cons,
      List.length_map, pow_mul]

/-- b58 has no leading zero (00_scope.md R13). -/
theorem b58_head_ne_zero {v d : Nat} (h : (b58 v).head? = some d) : d ≠ 0 := by
  rw [b58, List.head?_reverse] at h
  have hne : Nat.digits 58 v ≠ [] := by
    intro hnil
    simp [hnil] at h
  have hv : v ≠ 0 := Nat.digits_ne_nil_iff_ne_zero.1 hne
  rw [List.getLast?_eq_some_getLast hne, Option.some.injEq] at h
  exact h ▸ Nat.getLast_digit_ne_zero 58 hv

/-- A base-58 digit string is b58 of its value behind as many zeros as its length leaves room for. -/
theorem eq_zeros_append_b58 {ds : List Nat} (h : ∀ d ∈ ds, d < 58) :
    ds = List.replicate (ds.length - (b58 (placeValue 58 ds)).length) 0 ++ b58 (placeValue 58 ds) := by
  have hroom : (b58 (placeValue 58 ds)).length ≤ ds.length := b58_length_le.2 (placeValue_lt h)
  refine placeValue_inj (base := 58) ?_ h (fun d hd => ?_) ?_
  · rw [List.length_append, List.length_replicate]; omega
  · rcases List.mem_append.1 hd with hz | hb
    · rw [List.eq_of_mem_replicate hz]; omega
    · exact b58_lt hb
  · rw [placeValue_append, placeValue_replicate_zero, placeValue_b58, Nat.zero_mul, Nat.zero_add]

theorem byteDigits_lt (b : List Byte) : ∀ d ∈ b.map BitVec.toNat, d < 256 := by
  intro d hd
  obtain ⟨y, -, rfl⟩ := List.mem_map.1 hd
  exact y.isLt

/-- Byte strings of one length with the same value are the same string. -/
theorem intBe_inj {b c : List Byte} (hl : b.length = c.length) (h : intBe b = intBe c) : b = c := by
  have hmap := placeValue_inj (by simpa using hl) (byteDigits_lt b) (byteDigits_lt c) h
  exact List.map_injective_iff.2 (fun _ _ => BitVec.eq_of_toNat_eq) hmap

theorem intBe_lt (b : List Byte) : intBe b < 256 ^ b.length := by
  simpa [intBe] using placeValue_lt (byteDigits_lt b)

theorem getElem?_powersDown {w n i : Nat} (hi : i < n) : (powersDown w n)[i]? = some (w ^ (n - 1 - i)) := by
  induction n generalizing i with
  | zero => omega
  | succ n ih =>
    cases i with
    | zero => rfl
    | succ i =>
      rw [powersDown, List.getElem?_cons_succ, ih (by omega)]
      congr 2
      omega

/-- A table whose rows' values are falling powers has the power of its place in each row. -/
theorem rowValue_of_powersDown {base w n i : Nat} {rows : List (List Limb)} {row : List Limb}
    (h : rows.map (fun r => placeValue base (r.map BitVec.toNat)) = powersDown w n) (hi : i < n) (hr : rows[i]? = some row) :
    placeValue base (row.map BitVec.toNat) = w ^ (n - 1 - i) := by
  have hget := congrArg (·[i]?) h
  simpa [hr, getElem?_powersDown hi] using hget

end Sys2Proof.Machine
end

section
/-! SUPPORT. PACK and UNPACK (40_components.md R105 to R108); then O41. -/

namespace Sys2Proof.Machine

/-- PACK of `n` whole groups of bytes: `n` limbs of the bytes' value (40_components.md R105, R106). -/
theorem pack_spec {n : Nat} {b : List Byte} (hl : b.length = 4 * n) :
    (pack b).length = n ∧ val32Limbs (pack b) = intBe b := by
  induction n generalizing b with
  | zero =>
    obtain rfl := List.length_eq_zero_iff.1 hl
    exact ⟨rfl, rfl⟩
  | succ n ih =>
    obtain ⟨b0, b1, b2, b3, b, rfl⟩ : ∃ b0 b1 b2 b3 b', b = b0 :: b1 :: b2 :: b3 :: b' := by
      match b, hl with
      | b0 :: b1 :: b2 :: b3 :: b', _ => exact ⟨b0, b1, b2, b3, b', rfl⟩
    have hb : b.length = 4 * n := by simpa [Nat.mul_add] using hl
    obtain ⟨ihl, ihv⟩ := ih hb
    have hpow : (2 ^ 32) ^ n = 256 ^ b.length := by rw [hb, pow_mul]; rfl
    have hsplit := placeValue_append 256 [b0.toNat, b1.toNat, b2.toNat, b3.toNat] (b.map BitVec.toNat)
    rw [List.length_map, ← hpow] at hsplit
    refine ⟨by simp [pack, ihl], ?_⟩
    simp only [val32Limbs, intBe] at ihv ⊢
    rw [pack, List.map_cons, placeValue_cons, List.length_map, ihl, toNat_packLimb, ihv]
    exact hsplit.symm

theorem pack_injective {n : Nat} {b c : List Byte} (hb : b.length = 4 * n) (hc : c.length = 4 * n) (h : pack b = pack c) : b = c := by
  refine intBe_inj (hb.trans hc.symm) ?_
  rw [← (pack_spec hb).2, ← (pack_spec hc).2, h]

/-- The bytes of accumulators below 2^32 have the accumulators' value (40_components.md R108). -/
theorem intBe_unpack {bin : List Acc} (h : ∀ x ∈ bin, x.toNat < 2 ^ 32) : intBe (unpack bin) = val32 bin := by
  have hlimb : ∀ x ∈ bin, placeValue 256 ((limbBytes (limb32 x)).map BitVec.toNat) = x.toNat := by
    intro x hx
    rw [placeValue_limbBytes, limb32, BitVec.toNat_setWidth, Nat.mod_eq_of_lt (h x hx)]
  exact (placeValue_flatMap (k := 4) (fun _ _ => rfl) hlimb).2

/-- Settles O41: PACK keeps the value, so by the uniqueness of digits it is injective; UNPACK writes each limb's own four bytes. -/
theorem packAndUnpackKeepValues : Obligations.PackAndUnpackKeepValues :=
  ⟨fun _ _ => pack_spec, fun _ _ _ => pack_injective, fun bin h => ⟨length_unpack bin, intBe_unpack h⟩⟩

end Sys2Proof.Machine
end

section
/-! SUPPORT. MINI_REDUCE: its bounds and its value (40_components.md R112); then O42. -/

namespace Sys2Proof.Machine

theorem Fits.set {acc : List Acc} {bs : List Nat} (h : Fits acc bs) (i : Nat) {a : Acc} {b : Nat} (hab : a.toNat ≤ b) :
    Fits (acc.set i a) (bs.set i b) := by
  induction h generalizing i with
  | nil => exact .nil
  | cons hd h ih =>
    cases i with
    | zero => exact .cons hab h
    | succ i => exact .cons hd (ih i)

theorem Fits.getD {acc : List Acc} {bs : List Nat} (h : Fits acc bs) (i : Nat) : (acc.getD i 0).toNat ≤ bs.getD i 0 := by
  induction h generalizing i with
  | nil => simp
  | cons hd h ih =>
    cases i with
    | zero => simpa using hd
    | succ i => simpa using ih i

/-- Replacing one digit changes the value by the digit's weight. -/
theorem placeValue_set {base : Nat} {l : List Acc} {i : Nat} {x : Acc} (y : Acc) (h : l[i]? = some x) :
    placeValue base ((l.set i y).map BitVec.toNat) + x.toNat * base ^ (l.length - 1 - i) =
      placeValue base (l.map BitVec.toNat) + y.toNat * base ^ (l.length - 1 - i) := by
  induction l generalizing i with
  | nil => simp at h
  | cons a l ih =>
    cases i with
    | zero =>
      simp only [List.getElem?_cons_zero, Option.some.injEq] at h
      subst h
      simp only [List.set_cons_zero, List.map_cons, placeValue_cons, List.length_map, List.length_cons, Nat.add_sub_cancel,
        Nat.sub_zero]
      ring
    | succ i =>
      have hi := ih (by simpa using h)
      rw [show (a :: l).length - 1 - (i + 1) = l.length - 1 - i by rw [List.length_cons]; omega, List.set_cons_succ, List.map_cons,
        List.map_cons, placeValue_cons, placeValue_cons, List.length_map, List.length_map, List.length_set]
      omega

theorem length_miniReduce (acc : List Acc) : (miniReduce acc).length = acc.length := by
  simp [miniReduce]

/-- MINI_REDUCE in terms of the two accumulators it touches (40_components.md R112). -/
theorem miniReduce_eq {acc : List Acc} {x y : Acc} (hx : acc[15]? = some x) (hy : acc[16]? = some y) :
    miniReduce acc = (acc.set 15 (x + divR1 y)).set 16 (modR1 y) := by
  simp [miniReduce, List.getD_eq_getElem?_getD, hx, hy]

/-- The sum of the mini-reduction, where it does not wrap. -/
theorem toNat_add_divR1 {x y : Acc} (h : x.toNat + y.toNat / 58 ^ 5 < 2 ^ 64) :
    (x + divR1 y).toNat = x.toNat + y.toNat / 58 ^ 5 := by
  rw [BitVec.toNat_add, carryBase_r1.hi, Nat.mod_eq_of_lt h]

/-- The mini-reduction keeps the value: what accumulator 16 loses, accumulator 15 gains at the next weight (40_components.md R112). -/
theorem val58_miniReduce {acc : List Acc} {x y : Acc} (hl : acc.length = 18) (hx : acc[15]? = some x) (hy : acc[16]? = some y)
    (h : x.toNat + y.toNat / 58 ^ 5 < 2 ^ 64) : val58 (miniReduce acc) = val58 acc := by
  have hy' : (acc.set 15 (x + divR1 y))[16]? = some y := by simpa using hy
  have h15 := placeValue_set (base := 58 ^ 5) (x + divR1 y) hx
  have h16 := placeValue_set (base := 58 ^ 5) (modR1 y) hy'
  rw [hl, toNat_add_divR1 h] at h15
  rw [List.length_set, hl, carryBase_r1.lo] at h16
  rw [miniReduce_eq hx hy, val58, val58]
  omega

/-- Settles O42: the mini-reduction replaces two accumulators by their sum and remainder, which keeps the value. -/
theorem miniReduceKeepsValue : Obligations.MiniReduceKeepsValue := by
  intro acc x y hl hx hy h
  refine ⟨val58_miniReduce hl hx hy h, by rw [length_miniReduce, hl],
    ⟨x + divR1 y, modR1 y, ?_, toNat_add_divR1 h, ?_, carryBase_r1.lo y⟩, fun j h15 h16 => ?_⟩
  · rw [miniReduce_eq hx hy, List.getElem?_set_ne (by decide), List.getElem?_set_self (by omega)]
  · rw [miniReduce_eq hx hy, List.getElem?_set_self (by simp [hl])]
  · rw [miniReduce_eq hx hy, List.getElem?_set_ne h16.symm, List.getElem?_set_ne h15.symm]

end Sys2Proof.Machine
end


section
/-! SUPPORT. The encode datapath up to its accumulators: the rows of the encode tables, the bounds and the value of the transform
(41_radix_tables.md R150, R156; 40_components.md R109 to R111); then O39, O43 and O44. -/

namespace Sys2Proof.Machine

/-- The rows of an encode table are the falling powers of 2^32 (41_radix_tables.md R150). -/
theorem encTable_rowValues (sz : Size) :
    (encTable sz).map (fun r => placeValue (58 ^ 5) (r.map BitVec.toNat)) = powersDown (2 ^ 32) sz.limbs := by
  cases sz <;> decide +kernel

theorem encTable_rowLength (sz : Size) : ∀ row ∈ encTable sz, row.length = sz.inters - 1 := by
  cases sz <;> decide +kernel

/-- The digits of the rows are canonical: below the base (41_radix_tables.md R150). -/
theorem encTable_rowDigits {sz : Size} {row : List Limb} (h : row ∈ encTable sz) : ∀ x ∈ row, x.toNat < 58 ^ 5 := by
  have hall : ((encTable sz).all fun r => r.all fun x => decide (x.toNat < 58 ^ 5)) = true := by
    cases sz <;> decide +kernel
  simp only [List.all_eq_true, decide_eq_true_eq] at hall
  exact hall row h

theorem length_encTable (sz : Size) : (encTable sz).length = sz.limbs := by cases sz <;> rfl

/-- Settles O39: the digits are read off the table, and each row's value is the power of its place. -/
theorem encTableRowsAreCanonical : Obligations.EncTableRowsAreCanonical := by
  refine fun sz => ⟨length_encTable sz, fun i hi row hr => ?_⟩
  have hmem := List.mem_of_getElem? hr
  exact ⟨encTable_rowLength sz row hmem, encTable_rowDigits hmem,
    by rw [rowValue_of_powersDown (encTable_rowValues sz) hi hr, pow_mul]⟩

/-- The bounds after a batch of eight limbs, accumulator 0 getting no product. -/
def encBatchBounds (rows : List (List Limb)) (bs : List Nat) : List Nat :=
  boundBatch (List.replicate 8 (2 ^ 32 - 1)) (rows.map (0#32 :: ·)) bs

/-- No accumulator of a batch of eight limbs wraps. -/
def encBatchFits (rows : List (List Limb)) (bs : List Nat) : Bool :=
  batchFits (List.replicate 8 (2 ^ 32 - 1)) (rows.map (0#32 :: ·)) bs

/-- A batch of eight limbs that fits adds the limbs' products with the rows' values (40_components.md R110). -/
theorem encBatch_spec {xs : List Limb} {rows : List (List Limb)} {acc : List Acc} {bs : List Nat} (hl : xs.length = 8)
    (hf : Fits acc bs) (hb : encBatchFits rows bs = true) :
    Fits (encBatch xs rows acc) (encBatchBounds rows bs) ∧
      val58 (encBatch xs rows acc) = val58 acc +
        (List.zipWith (· * ·) (xs.map BitVec.toNat) (rows.map fun r => placeValue (58 ^ 5) (r.map BitVec.toNat))).sum := by
  have hx : Fits (xs.map (BitVec.setWidth 64)) (List.replicate 8 (2 ^ 32 - 1)) := hl ▸ fits_limbs xs
  obtain ⟨hfits, hval⟩ := decBatch_spec (58 ^ 5) hx hf hb
  have hlimbs : (xs.map (BitVec.setWidth 64)).map BitVec.toNat = xs.map BitVec.toNat := by
    rw [List.map_map]
    refine List.map_congr_left fun x _ => ?_
    exact (BitVec.toNat_setWidth 64 x).trans (Nat.mod_eq_of_lt (by have := x.isLt; omega))
  have hrows : (rows.map (0#32 :: ·)).map (fun r => placeValue (58 ^ 5) (r.map BitVec.toNat)) =
      rows.map fun r => placeValue (58 ^ 5) (r.map BitVec.toNat) := by
    simp [Function.comp_def, placeValue_cons]
  rw [encBatch_eq_decBatch]
  refine ⟨hfits, ?_⟩
  rw [hlimbs, hrows] at hval
  exact hval

theorem val58_replicate_zero (n : Nat) : val58 (List.replicate n 0) = 0 := by
  simp [val58, placeValue_replicate_zero]

/-- The bounds after the first batch of ENC64. -/
def encBounds1 : List Nat := encBatchBounds (encTable64.take 8) (List.replicate 18 0)

/-- The bounds after the mini-reduction. -/
def miniBounds (bs : List Nat) : List Nat := (bs.set 15 (bs.getD 15 0 + bs.getD 16 0 / 58 ^ 5)).set 16 (58 ^ 5 - 1)

/-- The bounds of the encode accumulators after the transform (41_radix_tables.md R156). -/
def encBounds : Size → List Nat
  | .n32 => encBatchBounds encTable32 (List.replicate 9 0)
  | .n64 => encBatchBounds (encTable64.drop 8) (miniBounds encBounds1)

theorem encBounds1_eq : encBounds1 =
    [0, 11300058953145, 641915259176056185, 2772157095477727695, 4114538497780889865, 3202276479271385730,
      7444030967732337990, 10278224098372643235, 11575131263129673585, 8153662970498932410, 12980765086872964845,
      10603210899057136605, 10541612211824274315, 8998235290826954925, 11112280479041667015, 9515453252698788270,
      16903800910049288865, 8351628226557709920] := by decide +kernel

theorem length_encBounds1 : encBounds1.length = 18 := by rw [encBounds1_eq]; rfl

theorem encBounds_n32_eq : encBounds .n32 =
    [0, 2206475023296825, 332007654872611020, 4653033169286404860, 3885447055389499005, 4403039173337236275,
      5288405990681333445, 9797816686278551970, 8451923070174936255] := by decide +kernel

theorem encBounds_n64_eq : encBounds .n64 =
    [0, 11300058953145, 641915259176056185, 2772157095477727695, 4114538497780889865, 3202276479271385730,
      7444030967732337990, 10278224098372643235, 11575131263129673585, 8153662970498932410, 12982971561896261670,
      10935218553929747625, 15194645381110679175, 12883682346216453930, 15515319652378903290, 14803859269134104509,
      9797816686934908737, 16803551296732646175] := by decide +kernel

theorem encBatchFits_n32 : encBatchFits encTable32 (List.replicate 9 0) = true := by decide +kernel

theorem encBatchFits_first : encBatchFits (encTable64.take 8) (List.replicate 18 0) = true := by decide +kernel

theorem encBatchFits_second : encBatchFits (encTable64.drop 8) (miniBounds encBounds1) = true := by decide +kernel

/-- The first batch of ENC64 fits its bounds (40_components.md R111). -/
theorem firstBatch_spec {limb : List Limb} (hl : limb.length = 8) :
    Fits (encBatch limb (encTable64.take 8) (List.replicate 18 0)) encBounds1 ∧
      val58 (encBatch limb (encTable64.take 8) (List.replicate 18 0)) =
        (List.zipWith (· * ·) (limb.map BitVec.toNat)
          ((encTable64.take 8).map fun r => placeValue (58 ^ 5) (r.map BitVec.toNat))).sum := by
  obtain ⟨hfits, hval⟩ := encBatch_spec hl (fits_replicate_zero 18) encBatchFits_first
  refine ⟨hfits, hval.trans ?_⟩
  rw [val58_replicate_zero, Nat.zero_add]

/-- The mini-reduction of accumulators within the first batch's bounds: its own bounds, and the same value. -/
theorem miniReduce_spec {acc : List Acc} (h : Fits acc encBounds1) :
    Fits (miniReduce acc) (miniBounds encBounds1) ∧ val58 (miniReduce acc) = val58 acc := by
  have hl : acc.length = 18 := h.length_eq.trans length_encBounds1
  obtain ⟨x, hx⟩ : ∃ x, acc[15]? = some x := ⟨_, List.getElem?_eq_getElem (by omega)⟩
  obtain ⟨y, hy⟩ : ∃ y, acc[16]? = some y := ⟨_, List.getElem?_eq_getElem (by omega)⟩
  have hxb := h.getD 15
  have hyb := h.getD 16
  simp only [List.getD_eq_getElem?_getD (l := acc), hx, hy, Option.getD_some] at hxb hyb
  have hdiv : y.toNat / 58 ^ 5 ≤ encBounds1.getD 16 0 / 58 ^ 5 := Nat.div_le_div_right hyb
  have hroom : encBounds1.getD 15 0 + encBounds1.getD 16 0 / 58 ^ 5 < 2 ^ 64 := by decide +kernel
  have hlt : x.toNat + y.toNat / 58 ^ 5 < 2 ^ 64 := by omega
  refine ⟨?_, val58_miniReduce hl hx hy hlt⟩
  rw [miniReduce_eq hx hy]
  refine (h.set 15 ?_).set 16 ?_
  · rw [toNat_add_divR1 hlt]; omega
  · rw [carryBase_r1.lo]; omega

/-- ENC_TRANSFORM does not wrap, and keeps the limbs' value (40_components.md R109, R111). -/
theorem encTransform_spec {sz : Size} {limb : List Limb} (hl : limb.length = sz.limbs) :
    Fits (encTransform sz limb) (encBounds sz) ∧ val58 (encTransform sz limb) = val32Limbs limb := by
  have hsum := sum_powersDown (2 ^ 32) (limb.map BitVec.toNat)
  rw [List.length_map, hl, ← encTable_rowValues sz] at hsum
  cases sz with
  | n32 =>
    obtain ⟨hfits, hval⟩ := encBatch_spec hl (fits_replicate_zero 9) encBatchFits_n32
    refine ⟨hfits, hval.trans ?_⟩
    rw [val58_replicate_zero, Nat.zero_add]
    exact hsum
  | n64 =>
    have hl16 : limb.length = 16 := hl
    obtain ⟨hf1, hv1⟩ := firstBatch_spec (limb := limb.take 8) (by simp [hl16])
    obtain ⟨hfm, hvm⟩ := miniReduce_spec hf1
    obtain ⟨hf2, hv2⟩ := encBatch_spec (xs := limb.drop 8) (by simp [hl16]) hfm encBatchFits_second
    refine ⟨hf2, ?_⟩
    rw [encTransform, hv2, hvm, hv1, val32Limbs, ← hsum, ← List.sum_append, List.map_take, List.map_take, List.map_drop, List.map_drop,
      ← List.zipWith_append (by simp [hl16, encTable64]), List.take_append_drop, List.take_append_drop]
    rfl

/-- Settles O43: the accumulators fit the computed bounds, which are the table's. -/
theorem encodeAccumulatorBounds : Obligations.EncodeAccumulatorBounds := by
  refine ⟨fun limb hl => ?_, fun limb hl => ?_, fun limb hl x y hx hy => ?_⟩
  · rw [← encBounds_n32_eq]
    exact (encTransform_spec (sz := .n32) hl).1
  · rw [← encBounds_n64_eq]
    exact (encTransform_spec (sz := .n64) hl).1
  · have hfits := (firstBatch_spec hl).1
    rw [encBounds1_eq] at hfits
    have h15 := hfits.getD 15
    have h16 := hfits.getD 16
    rw [List.getD_eq_getElem?_getD, hx] at h15
    rw [List.getD_eq_getElem?_getD, hy] at h16
    exact ⟨h15, h16⟩

/-- PACK of an operand of `N` bytes gives `L` limbs (00_scope.md R6, R7). -/
theorem pack_operand {sz : Size} {b : List Byte} (hb : b.length = sz.bytes) :
    (pack b).length = sz.limbs ∧ val32Limbs (pack b) = intBe b :=
  pack_spec (hb.trans (by cases sz <;> rfl))

/-- Settles O44: the transform keeps the limbs' value, which is the operand's. -/
theorem encodeTransformIsExact : Obligations.EncodeTransformIsExact := by
  intro sz b hb
  obtain ⟨hlen, hval⟩ := pack_operand hb
  exact (encTransform_spec hlen).2.trans hval

end Sys2Proof.Machine
end

section
/-! SUPPORT. ALPHABET and INVERSE undo each other (40_components.md R100 to R102); then O38. -/

namespace Sys2Proof.Machine

/-- A statement about every byte, from the 256 of them. -/
theorem forall_byte {P : Byte → Prop} (h : ∀ n < 256, P (BitVec.ofNat 8 n)) (c : Byte) : P c := by
  simpa using h c.toNat c.isLt

theorem inverse_alphabet {d : Byte} (h : d.toNat ≤ 57) : inverse (alphabet d) = d := by
  refine forall_byte (P := fun d => d.toNat ≤ 57 → inverse (alphabet d) = d) ?_ d h
  decide +kernel

/-- Settles O38: both clauses are finite, one line of the table per byte. -/
theorem inverseTableIsAlphabetInverse : Obligations.InverseTableIsAlphabetInverse := by
  refine ⟨fun d => inverse_alphabet, forall_byte ?_⟩
  decide +kernel

/-- A character of the alphabet comes back from its digit. -/
theorem alphabet_inverse {c : Byte} (h : isTextChar c = true) : alphabet (inverse c) = c := by
  refine forall_byte (P := fun c => isTextChar c = true → alphabet (inverse c) = c) ?_ c h
  decide +kernel

theorem isTextChar_alphabet {d : Byte} (h : d.toNat ≤ 57) : isTextChar (alphabet d) = true := by
  refine forall_byte (P := fun d => d.toNat ≤ 57 → isTextChar (alphabet d) = true) ?_ d h
  decide +kernel

/-- A base-58 digit as a byte. -/
theorem toNat_digit {d : Nat} (h : d < 58) : (BitVec.ofNat 8 d).toNat = d := by
  rw [BitVec.toNat_ofNat, Nat.mod_eq_of_lt (by omega)]

/-- The characters of digits below 58, given as numbers. -/
theorem inverse_alphabet_ofNat {d : Nat} (h : d < 58) : (inverse (alphabet (BitVec.ofNat 8 d))).toNat = d := by
  rw [inverse_alphabet (by rw [toNat_digit h]; omega), toNat_digit h]

/-- Only the digit 0 is written as '1' (40_components.md R100). -/
theorem alphabet_ofNat_eq_one {d : Nat} (h : d < 58) : alphabet (BitVec.ofNat 8 d) = 0x31#8 ↔ d = 0 := by
  constructor
  · intro hd
    have hinv := inverse_alphabet_ofNat h
    rw [hd] at hinv
    exact hinv.symm
  · rintro rfl
    rfl

end Sys2Proof.Machine
end

section
/-! SUPPORT. The encode datapath from its accumulators to the raw digits (40_components.md R113 to R118); then O45 and O46. -/

namespace Sys2Proof.Machine

theorem encBounds_carryFits (sz : Size) : carryFits (58 ^ 5) (encBounds sz) = true := by
  cases sz <;> decide +kernel

theorem length_encBounds (sz : Size) : (encBounds sz).length = sz.inters := by
  cases sz <;> decide +kernel

theorem inters_pos (sz : Size) : 0 < sz.inters := by cases sz <;> decide

/-- NORM58 normalizes the accumulators of the operand's value (40_components.md R113). -/
theorem normalized_norm58 {sz : Size} {b : List Byte} (hb : b.length = sz.bytes) :
    Normalized (58 ^ 5) sz.inters (intBe b) (norm58 (encTransform sz (pack b))) := by
  obtain ⟨hlen, hval⟩ := pack_operand hb
  obtain ⟨hfits, henc⟩ := encTransform_spec hlen
  obtain ⟨hnv, hnl, hnt⟩ := normalize_spec carryBase_r1 (by norm_num) hfits (encBounds_carryFits sz)
  exact ⟨hnl.trans (hfits.length_eq.trans (length_encBounds sz)), hnv.trans (henc.trans hval), hnt⟩

theorem operand_lt {sz : Size} {b : List Byte} (hb : b.length = sz.bytes) : intBe b < 256 ^ sz.bytes := hb ▸ intBe_lt b

/-- The first base-58^5 digit of an operand (40_components.md R114). -/
theorem operand_head_le {sz : Size} {v : Nat} (h : v < 256 ^ sz.bytes) :
    v / 58 ^ (5 * (sz.inters - 1)) ≤ if sz = .n32 then 3361701 else 17217 := by
  have hle : v / 58 ^ (5 * (sz.inters - 1)) ≤ (256 ^ sz.bytes - 1) / 58 ^ (5 * (sz.inters - 1)) :=
    Nat.div_le_div_right (by omega)
  refine hle.trans ?_
  cases sz <;> decide +kernel

/-- Settles O45: the tail is reduced, so the first accumulator is the quotient by its weight, which the operand's size bounds. -/
theorem normalizedAccumulatorsAreDigits : Obligations.NormalizedAccumulatorsAreDigits := by
  intro sz b hb
  have hnorm := normalized_norm58 hb
  obtain ⟨x, hhead, hx⟩ := hnorm.head (inters_pos sz)
  rw [← pow_mul] at hx
  have hle := operand_head_le (operand_lt hb)
  rw [← hx] at hle
  refine ⟨hnorm.length, hnorm.value, fun y hy => ?_, x, hhead, hx, hle⟩
  obtain ⟨rest, hrest⟩ := List.head?_eq_some_iff.1 hhead
  rw [hrest] at hy
  rcases List.mem_cons.1 hy with rfl | hy
  · split at hle <;> omega
  · exact hnorm.reduced y (by rw [hrest]; exact hy)

/-- The raw digits: `RAW` of them, each below 58, with the operand's value (40_components.md R117). -/
theorem encodeRaw_spec {sz : Size} {b : List Byte} (hb : b.length = sz.bytes) :
    (encodeRaw sz b).length = sz.raw ∧ (∀ d ∈ encodeRaw sz b, d.toNat < 58) ∧ valRaw (encodeRaw sz b) = intBe b := by
  obtain ⟨hlen, hval, hlt, -⟩ := normalizedAccumulatorsAreDigits sz b hb
  obtain ⟨hel, hev⟩ := placeValue_flatMap (k := 5) (fun _ _ => rfl) fun a ha => (expandOne_spec (hlt a ha)).2
  refine ⟨?_, fun d hd => ?_, hev.trans hval⟩
  · rw [encodeRaw, expand, hel, hlen]
    cases sz <;> rfl
  · obtain ⟨a, ha, hda⟩ := List.mem_flatMap.1 hd
    exact (expandOne_spec (hlt a ha)).1 d hda

/-- The raw digits are b58 of the operand behind zeros (40_components.md R118). -/
theorem encodeRaw_eq {sz : Size} {b : List Byte} (hb : b.length = sz.bytes) :
    encodeRaw sz b = List.replicate (sz.raw - (b58 (intBe b)).length) 0x00#8 ++ (b58 (intBe b)).map (BitVec.ofNat 8) := by
  obtain ⟨hlen, hlt, hval⟩ := encodeRaw_spec hb
  have hzeros := eq_zeros_append_b58 (ds := (encodeRaw sz b).map BitVec.toNat) (by simpa using hlt)
  rw [← valRaw, hval, List.length_map, hlen] at hzeros
  simpa [Function.comp_def] using congrArg (List.map (BitVec.ofNat 8)) hzeros

/-- The zeros in front of the raw digits are all that LZD counts there. -/
theorem lzdZeros_encodeRaw {sz : Size} {b : List Byte} (hb : b.length = sz.bytes) :
    lzdZeros (encodeRaw sz b) = sz.raw - (b58 (intBe b)).length := by
  rw [encodeRaw_eq hb, lzdZeros, lzd_append]
  · exact List.length_replicate
  · intro x hx
    simp [List.eq_of_mem_replicate hx]
  · intro y hy
    rw [List.head?_map, Option.map_eq_some_iff] at hy
    obtain ⟨d, hd, rfl⟩ := hy
    have htoNat := toNat_digit (b58_lt (List.mem_of_head? hd))
    rw [beq_eq_false_iff_ne]
    intro h0
    rw [h0] at htoNat
    exact b58_head_ne_zero hd htoNat.symm

/-- The leading zero bytes and the digits of the value together are at most MAXLEN (42_encode.md R177). -/
theorem lzdZeros_add_digits_le {sz : Size} {b : List Byte} (hb : b.length = sz.bytes) :
    lzdZeros b + (b58 (intBe b)).length ≤ sz.maxLen := by
  have hz : lzdZeros b ≤ sz.bytes := hb ▸ lzd_le _ b
  have hroom : sz.bytes ≤ sz.maxLen := by cases sz <;> decide
  have hrange : 256 ^ sz.bytes ≤ 58 ^ sz.maxLen := by cases sz <;> decide +kernel
  have hval : intBe b = intBe (b.drop (lzdZeros b)) := by
    conv_lhs => rw [lzdZeros_split b]
    simp [intBe, placeValue_append, placeValue_replicate_zero]
  have hlt : intBe b < 256 ^ (sz.bytes - lzdZeros b) := by
    rw [hval, ← hb, ← List.length_drop]
    exact intBe_lt _
  have hpow : 256 ^ (sz.bytes - lzdZeros b) ≤ 58 ^ (sz.maxLen - lzdZeros b) := by
    refine Nat.le_of_mul_le_mul_right ?_ (show 0 < 58 ^ lzdZeros b by positivity)
    calc 256 ^ (sz.bytes - lzdZeros b) * 58 ^ lzdZeros b
        ≤ 256 ^ (sz.bytes - lzdZeros b) * 256 ^ lzdZeros b := Nat.mul_le_mul_left _ (Nat.pow_le_pow_left (by norm_num) _)
      _ = 256 ^ sz.bytes := by rw [← pow_add, Nat.sub_add_cancel hz]
      _ ≤ 58 ^ sz.maxLen := hrange
      _ = 58 ^ (sz.maxLen - lzdZeros b) * 58 ^ lzdZeros b := by rw [← pow_add, Nat.sub_add_cancel (hz.trans hroom)]
  have hlen := b58_length_le.2 (hlt.trans_le hpow)
  omega

/-- Settles O46: behind the zeros of the raw digits stand at most MAXLEN digits, so there is one zero, and two for `N = 64`. -/
theorem rawDigitsOfTheOperand : Obligations.RawDigitsOfTheOperand := by
  intro sz b hb
  obtain ⟨hlen, hlt, hval⟩ := encodeRaw_spec hb
  have hroom := lzdZeros_add_digits_le hb
  have hzero : ∀ k, k + sz.maxLen < sz.raw → (encodeRaw sz b)[k]? = some 0x00#8 := by
    intro k hk
    rw [encodeRaw_eq hb, List.getElem?_append_left (by rw [List.length_replicate]; omega),
      List.getElem?_replicate_of_lt (by omega)]
  refine ⟨hlen, fun d hd => Nat.le_of_lt_succ (hlt d hd), hval, hzero 0 ?_, ?_⟩
  · cases sz <;> decide
  · rintro rfl
    exact hzero 1 (by decide)

end Sys2Proof.Machine
end

section
/-! SUPPORT. The text of an operand: its length, its characters, its leading '1's and its value, and that ENCODE computes it
(42_encode.md R173 to R179); then O30, O29 and O32. -/

namespace Sys2Proof.Machine

theorem length_canonicalText (b : List Byte) : (canonicalText b).length = lzdZeros b + (b58 (intBe b)).length := by
  simp [canonicalText]

/-- The longest text is shorter than RAW digits (00_scope.md R7). -/
theorem maxLen_lt_raw (sz : Size) : sz.maxLen < sz.raw := by cases sz <;> decide

/-- Settles O30: the raw digits that are dropped leave room for the operand's leading zeros. -/
theorem encodeSkipNeverUnderflows : Obligations.EncodeSkipNeverUnderflows := by
  intro sz b hb
  have hroom := lzdZeros_add_digits_le hb
  have hraw := maxLen_lt_raw sz
  rw [lzdZeros_encodeRaw hb]
  omega

/-- ENCODE writes the text '1'^z ++ b58(v): it drops all raw zeros but as many as the operand has (42_encode.md R173, R174). -/
theorem encodeText_eq {sz : Size} {b : List Byte} (hb : b.length = sz.bytes) : encodeText sz b = canonicalText b := by
  have hskip := encodeSkipNeverUnderflows sz b hb
  rw [encodeText, encodeSkip, lzdZeros_encodeRaw hb, encodeRaw_eq hb]
  rw [lzdZeros_encodeRaw hb] at hskip
  rw [List.drop_append_of_le_length (by simp), List.drop_replicate, Nat.sub_sub_self hskip, List.map_append, List.map_replicate,
    List.map_map]
  rfl

theorem length_canonicalText_le {sz : Size} {b : List Byte} (hb : b.length = sz.bytes) : (canonicalText b).length ≤ sz.maxLen :=
  length_canonicalText b ▸ lzdZeros_add_digits_le hb

/-- The text has room for its terminator (00_scope.md R7). -/
theorem length_canonicalText_lt {sz : Size} {b : List Byte} (hb : b.length = sz.bytes) :
    (canonicalText b).length < sz.encoded := by
  have hle := length_canonicalText_le hb
  have hpos : 0 < sz.encoded := by cases sz <;> decide
  unfold Size.maxLen at hle
  omega

/-- A text has a character for every byte of its operand: one for each leading zero, and a base-58 digit is worth at most a byte. -/
theorem length_le_length_canonicalText (b : List Byte) : b.length ≤ (canonicalText b).length := by
  rw [length_canonicalText]
  by_contra hshort
  have hsplit := lzdZeros_split b
  cases hrest : b.drop (lzdZeros b) with
  | nil =>
    have hz := List.drop_eq_nil_iff.1 hrest
    omega
  | cons c rest =>
    have hc : c.toNat ≠ 0 := by
      intro h0
      have hnext := (lzd_spec (· == 0x00#8) b).2 c (by rw [← lzdZeros, hrest]; rfl)
      rw [beq_eq_false_iff_ne] at hnext
      exact hnext (BitVec.eq_of_toNat_eq h0)
    have hval : intBe b = placeValue 256 (c.toNat :: rest.map BitVec.toNat) := by
      rw [hrest] at hsplit
      rw [hsplit, intBe, List.map_append, List.map_replicate, List.map_cons, placeValue_append]
      simp [placeValue_replicate_zero]
    have hlen := congrArg List.length hrest
    rw [List.length_drop, List.length_cons] at hlen
    have hge : 256 ^ rest.length ≤ intBe b := by
      rw [hval, placeValue_cons, List.length_map]
      exact (Nat.le_mul_of_pos_left _ (Nat.pos_of_ne_zero hc)).trans (Nat.le_add_right _ _)
    have hlt : intBe b < 58 ^ rest.length := b58_length_le.1 (by omega)
    have hpow : 58 ^ rest.length ≤ 256 ^ rest.length := Nat.pow_le_pow_left (by norm_num) _
    omega

theorem lzdZeros_replicate_zero (n : Nat) : lzdZeros (List.replicate n 0x00#8) = n := by
  simpa [lzdZeros] using lzd_append (P := (· == 0x00#8)) (xs := List.replicate n 0x00#8) (ys := []) (by simp) (by simp)

/-- The all-zero operand's text is its leading '1's only. -/
theorem length_canonicalText_zeros (n : Nat) : (canonicalText (List.replicate n 0x00#8)).length = n := by
  rw [length_canonicalText, lzdZeros_replicate_zero]
  simp [intBe, placeValue_replicate_zero, b58]

/-- The all-0xFF operand does not fit in one character less than MAXLEN. -/
theorem maxLen_le_length_canonicalText_ones (sz : Size) : sz.maxLen ≤ (canonicalText (List.replicate sz.bytes 0xFF#8)).length := by
  have hval : 58 ^ (sz.maxLen - 1) ≤ intBe (List.replicate sz.bytes 0xFF#8) := by cases sz <;> decide +kernel
  have hdigits : ¬ (b58 (intBe (List.replicate sz.bytes 0xFF#8))).length ≤ sz.maxLen - 1 :=
    fun h => Nat.not_lt.2 hval (b58_length_le.1 h)
  rw [length_canonicalText]
  omega

/-- Settles O29: the bounds hold for every operand's text, and the two operands meet them. -/
theorem encodeLengthBounds : Obligations.EncodeLengthBounds := by
  intro sz
  refine ⟨fun b hb => ?_, ?_, ?_⟩
  · rw [encodeText_eq hb]
    exact ⟨hb ▸ length_le_length_canonicalText b, length_canonicalText_le hb⟩
  · rw [encodeText_eq List.length_replicate, length_canonicalText_zeros]
  · rw [encodeText_eq List.length_replicate]
    exact le_antisymm (length_canonicalText_le List.length_replicate) (maxLen_le_length_canonicalText_ones sz)

/-- The text has exactly as many leading '1's as the operand has leading zeros: b58 starts with no zero (42_encode.md R179). -/
theorem lzdOnes_canonicalText (b : List Byte) : lzdOnes (canonicalText b) = lzdZeros b := by
  rw [canonicalText, lzdOnes, lzd_append]
  · exact List.length_replicate
  · intro c hc
    simp [List.eq_of_mem_replicate hc]
  · intro c hc
    rw [List.head?_map, Option.map_eq_some_iff] at hc
    obtain ⟨d, hd, rfl⟩ := hc
    rw [beq_eq_false_iff_ne]
    exact fun h1 => b58_head_ne_zero hd ((alphabet_ofNat_eq_one (b58_lt (List.mem_of_head? hd))).1 h1)

/-- Settles O32: the text that ENCODE computes is the canonical one. -/
theorem encodeLeadingOnes : Obligations.EncodeLeadingOnes := by
  intro sz b hb
  rw [encodeText_eq hb, lzdOnes_canonicalText]

/-- Every character of a text is the character of a digit. -/
theorem mem_canonicalText {b : List Byte} {c : Byte} (h : c ∈ canonicalText b) : ∃ d < 58, c = alphabet (BitVec.ofNat 8 d) := by
  rcases List.mem_append.1 h with hz | hb
  · exact ⟨0, by norm_num, List.eq_of_mem_replicate hz⟩
  · obtain ⟨d, hd, rfl⟩ := List.mem_map.1 hb
    exact ⟨d, b58_lt hd, rfl⟩

theorem isTextChar_of_mem_canonicalText {b : List Byte} {c : Byte} (h : c ∈ canonicalText b) : isTextChar c = true := by
  obtain ⟨d, hd, rfl⟩ := mem_canonicalText h
  exact isTextChar_alphabet (by rw [toNat_digit hd]; omega)

/-- A text has the value of its operand (40_components.md R121). -/
theorem textValue_canonicalText (b : List Byte) : textValue (canonicalText b) = intBe b := by
  have hzero : (inverse 0x31#8).toNat = 0 := rfl
  have hdigits : ((b58 (intBe b)).map fun d => alphabet (BitVec.ofNat 8 d)).map (fun c => (inverse c).toNat) = b58 (intBe b) := by
    rw [List.map_map]
    exact (List.map_congr_left fun d hd => inverse_alphabet_ofNat (b58_lt hd)).trans (List.map_id _)
  rw [textValue, valRaw, List.map_map, canonicalText, List.map_append, List.map_replicate]
  simp only [Function.comp_def]
  rw [hdigits, hzero, placeValue_append, placeValue_replicate_zero, placeValue_b58, Nat.zero_mul, Nat.zero_add]

end Sys2Proof.Machine
end

section
/-! SUPPORT. The decode datapath: the rows of the decode tables, the intermediates and their bounds, the limbs
(41_radix_tables.md R153, R157; 40_components.md R116, R119; 43_decode.md R193); then O40, O47, O48 and O49. -/

namespace Sys2Proof.Machine

theorem length_decTable (sz : Size) : (decTable sz).length = sz.inters := by cases sz <;> rfl

theorem decTable_rowLength (sz : Size) : ∀ row ∈ decTable sz, row.length = sz.limbs := by
  cases sz <;> decide +kernel

/-- Settles O40: each row's value is the power of its place. -/
theorem decTableRowsAreExpansions : Obligations.DecTableRowsAreExpansions := by
  refine fun sz => ⟨length_decTable sz, fun i hi row hr => ⟨decTable_rowLength sz row (List.mem_of_getElem? hr), ?_⟩⟩
  rw [rowValue_of_powersDown (decTable_rowValues sz) hi hr, pow_mul]

/-- A text in bounds has at most MAXLEN digits (43_decode.md R190). -/
theorem textValue_lt {sz : Size} {x : List Byte} (hx : ∀ c ∈ x, isTextChar c = true) (hl : x.length < sz.encoded) :
    textValue x < 58 ^ sz.maxLen := by
  have hdigits : ∀ d ∈ (x.map inverse).map BitVec.toNat, d < 58 := by
    simpa using fun c hc => inverse_lt (hx c hc)
  have hlt := placeValue_lt hdigits
  rw [List.length_map, List.length_map] at hlt
  exact hlt.trans_le (Nat.pow_le_pow_right (by norm_num) (Nat.le_sub_one_of_lt hl))

/-- The greatest first intermediate of a text in bounds (40_components.md R119). -/
def interHead (sz : Size) : Nat := if sz = .n32 then 58 ^ 4 - 1 else 58 ^ 3 - 1

/-- The first base-58^5 digit of a value of at most MAXLEN base-58 digits. -/
theorem textValue_head_le {sz : Size} {v : Nat} (h : v < 58 ^ sz.maxLen) : v / (58 ^ 5) ^ (sz.inters - 1) ≤ interHead sz := by
  have hle : v / (58 ^ 5) ^ (sz.inters - 1) ≤ (58 ^ sz.maxLen - 1) / (58 ^ 5) ^ (sz.inters - 1) :=
    Nat.div_le_div_right (by omega)
  refine hle.trans ?_
  cases sz <;> decide +kernel

/-- Settles O47: the intermediates are the digits' groups, and the first is what the text's length leaves of its value. -/
theorem recomposedIntermediates : Obligations.RecomposedIntermediates := by
  intro sz x hx hl
  obtain ⟨hlen, hval, hlt⟩ := recompose_spec (length_decodeRaw hl) (decodeRaw_lt sz hx)
  rw [valRaw_decodeRaw] at hval
  have hnorm : Normalized (58 ^ 5) sz.inters (textValue x) (recompose (decodeRaw sz x)) :=
    ⟨hlen, hval, fun y hy => hlt y (List.mem_of_mem_tail hy)⟩
  obtain ⟨a, hhead, ha⟩ := hnorm.head (inters_pos sz)
  refine ⟨hlen, hval, fun y hy => Nat.le_pred_of_lt (hlt y hy), fun y hy => ?_⟩
  obtain rfl : a = y := Option.some.inj (hhead.symm.trans hy)
  exact ha ▸ textValue_head_le (textValue_lt hx hl)

/-- The bounds of the intermediates: the first of a text in bounds is smaller than the others. -/
def interBounds (sz : Size) : List Nat := interHead sz :: List.replicate (sz.inters - 1) (58 ^ 5 - 1)

theorem fits_interBounds {sz : Size} {inter : List Acc} (hl : inter.length = sz.inters) (hlt : ∀ a ∈ inter, a.toNat ≤ 58 ^ 5 - 1)
    (hhead : ∀ a, inter.head? = some a → a.toNat ≤ interHead sz) : Fits inter (interBounds sz) := by
  cases inter with
  | nil => cases sz <;> simp [Size.inters] at hl
  | cons a rest =>
    rw [interBounds, ← hl, List.length_cons, Nat.add_sub_cancel]
    exact .cons (hhead a rfl) (fits_replicate fun c hc => hlt c (List.mem_cons_of_mem a hc))

theorem interBounds_batchFits (sz : Size) : batchFits (interBounds sz) (decTable sz) (List.replicate sz.limbs 0) = true := by
  cases sz <;> decide +kernel

/-- The decode accumulators fit the bounds computed from the intermediates' (41_radix_tables.md R157). -/
theorem fits_decTransform {sz : Size} {inter : List Acc} (h : Fits inter (interBounds sz)) :
    Fits (decTransform sz inter) (boundBatch (interBounds sz) (decTable sz) (List.replicate sz.limbs 0)) :=
  (decBatch_spec (2 ^ 32) h (fits_replicate_zero sz.limbs) (interBounds_batchFits sz)).1

theorem boundBatch_interBounds_n32 : boundBatch (interBounds .n32) (decTable .n32) (List.replicate Size.n32.limbs 0) =
    [14451164115, 29998699315519185, 820671900048833475, 3991120274865088122, 4455592240951444755, 6901160305414002066,
      5151081256043841603, 8769783620215767039] := by decide +kernel

theorem boundBatch_interBounds_n64 : boundBatch (interBounds .n64) (decTable .n64) (List.replicate Size.n64.limbs 0) =
    [48670048728, 1797160830144150, 1242820247893089774, 3690532104604470366, 3233947555027573200, 8127829674796109370,
      8006957926639913601, 12697580126659347174, 12996702967713925974, 13435304303843980401, 11538901936033199616,
      15269377648689102396, 15906911434492878486, 17385290212731875541, 9946920139805653059, 8769783620215767039] := by
  decide +kernel

/-- Settles O48: the accumulators fit the computed bounds, which are the table's. -/
theorem decodeAccumulatorBounds : Obligations.DecodeAccumulatorBounds := by
  refine ⟨fun inter hl hlt hhead => ?_, fun inter hl hlt hhead => ?_⟩
  · rw [← boundBatch_interBounds_n32]
    exact fits_decTransform (fits_interBounds hl hlt hhead)
  · rw [← boundBatch_interBounds_n64]
    exact fits_decTransform (fits_interBounds hl hlt hhead)

/-- Settles O49: NORM32 keeps the text's value and reduces all limbs but the first, which is then the quotient by its weight. -/
theorem decodeLimbsHaveTheTextsValue : Obligations.DecodeLimbsHaveTheTextsValue := by
  intro sz x hx hl
  obtain ⟨hlen, hval, htail⟩ := decodeLimbs_spec hx hl
  have hnorm : Normalized (2 ^ 32) sz.limbs (textValue x) (decodeLimbs sz x) := ⟨hlen, hval, htail⟩
  obtain ⟨a, hhead, ha⟩ := hnorm.head (by cases sz <;> decide)
  rw [← pow_mul] at ha
  exact ⟨hlen, hval, htail, a, hhead, ha⟩

end Sys2Proof.Machine
end

section
/-! SUPPORT. What a decode accepts: the text of an operand and nothing else (43_decode.md R194, R195, R199, R203); then O36. -/

namespace Sys2Proof.Machine

/-- Past the overflow check every limb is below 2^32, so UNPACK gives `N` bytes of the text's value (43_decode.md R194). -/
theorem unpack_decodeLimbs {sz : Size} {x : List Byte} (hx : ∀ c ∈ x, isTextChar c = true) (hl : x.length < sz.encoded)
    (hlt : textValue x < 256 ^ sz.bytes) :
    (unpack (decodeLimbs sz x)).length = sz.bytes ∧ intBe (unpack (decodeLimbs sz x)) = textValue x := by
  obtain ⟨hlen, hval, htail, a, hhead, ha⟩ := decodeLimbsHaveTheTextsValue sz x hx hl
  have ha32 : a.toNat < 2 ^ 32 := by
    rw [ha]
    refine Nat.div_lt_of_lt_mul (hlt.trans_le ?_)
    cases sz <;> decide +kernel
  have hlimbs : ∀ y ∈ decodeLimbs sz x, y.toNat < 2 ^ 32 := by
    obtain ⟨rest, hrest⟩ := List.head?_eq_some_iff.1 hhead
    rw [hrest] at htail ⊢
    exact List.forall_mem_cons.2 ⟨ha32, htail⟩
  refine ⟨?_, (intBe_unpack hlimbs).trans hval⟩
  rw [length_unpack, hlen]
  cases sz <;> rfl

/-- A decode gives `b` exactly when `b` is the operand of the text's value and has as many leading zeros as the text has '1's
(43_decode.md R194, R195). -/
theorem decodeText_eq_some {sz : Size} {x b : List Byte} (hx : ∀ c ∈ x, isTextChar c = true) (hl : x.length < sz.encoded) :
    decodeText sz x = some b ↔ b.length = sz.bytes ∧ intBe b = textValue x ∧ lzdZeros b = lzdOnes x := by
  have hover := overflowCheckIsExact sz x hx hl
  have hpos : 0 < 256 ^ sz.bytes := by positivity
  rw [decodeText]
  by_cases hlt : textValue x < 256 ^ sz.bytes
  · obtain ⟨hlen, hval⟩ := unpack_decodeLimbs hx hl hlt
    rw [if_neg (mt hover.1 (by omega)), ite_eq_iff]
    constructor
    · rintro (⟨-, h⟩ | ⟨hz, h⟩)
      · cases h
      · cases h
        exact ⟨hlen, hval, not_not.1 hz⟩
    · rintro ⟨hb, hv, hz⟩
      obtain rfl : b = unpack (decodeLimbs sz x) := intBe_inj (hb.trans hlen.symm) (hv.trans hval.symm)
      exact .inr ⟨not_not.2 hz, rfl⟩
  · rw [if_pos (hover.2 (by omega))]
    simp only [reduceCtorEq, false_iff]
    rintro ⟨hb, hv, -⟩
    exact hlt (hv ▸ operand_lt hb)

/-- A text without a leading '1' is written from b58 of its value. -/
theorem map_alphabet_digits_textValue {x : List Byte} (hx : ∀ c ∈ x, isTextChar c = true)
    (hhead : ∀ c, x.head? = some c → c ≠ 0x31#8) :
    (b58 (textValue x)).map (fun d => alphabet (BitVec.ofNat 8 d)) = x := by
  have hdigits : b58 (textValue x) = (x.map inverse).map BitVec.toNat := by
    refine b58_placeValue (by simpa using fun c hc => inverse_lt (hx c hc)) fun d hd => ?_
    rw [List.head?_map, List.head?_map, Option.map_map, Option.map_eq_some_iff] at hd
    obtain ⟨c, hc, rfl⟩ := hd
    intro h0
    have hinv : inverse c = 0#8 := BitVec.eq_of_toNat_eq h0
    refine hhead c hc ?_
    rw [← alphabet_inverse (hx c (List.mem_of_head? hc)), hinv]
    rfl
  rw [hdigits, List.map_map, List.map_map]
  refine (List.map_congr_left fun c hc => ?_).trans (List.map_id x)
  simpa using alphabet_inverse (hx c hc)

/-- The leading '1's as a run in front of the rest; the counterpart of `lzdZeros_split`. -/
theorem lzdOnes_split (x : List Byte) : x = List.replicate (lzdOnes x) 0x31#8 ++ x.drop (lzdOnes x) := by
  have hones : x.take (lzdOnes x) = List.replicate (lzdOnes x) 0x31#8 :=
    List.eq_replicate_iff.2 ⟨by simp [lzdOnes, lzd_le], fun c hc => by simpa using (lzd_spec (· == 0x31#8) x).1 c hc⟩
  conv_lhs => rw [← List.take_append_drop (lzdOnes x) x, hones]

/-- A text is an operand's exactly when it has the operand's value and as many leading '1's as the operand has leading zeros. -/
theorem eq_canonicalText_iff {x b : List Byte} (hx : ∀ c ∈ x, isTextChar c = true) :
    x = canonicalText b ↔ intBe b = textValue x ∧ lzdZeros b = lzdOnes x := by
  constructor
  · rintro rfl
    exact ⟨(textValue_canonicalText b).symm, (lzdOnes_canonicalText b).symm⟩
  · rintro ⟨hv, hz⟩
    have hsplit := lzdOnes_split x
    have hrest : textValue x = textValue (x.drop (lzdOnes x)) := by
      have hone : (inverse 0x31#8).toNat = 0 := rfl
      conv_lhs => rw [hsplit]
      simp [textValue, valRaw, placeValue_append, hone, placeValue_replicate_zero]
    have htext := map_alphabet_digits_textValue (x := x.drop (lzdOnes x)) (fun c hc => hx c (List.mem_of_mem_drop hc))
      fun c hc => by simpa using (lzd_spec (· == 0x31#8) x).2 c hc
    rw [canonicalText, hz, hv, hrest, htext]
    exact hsplit

/-- A decode accepts exactly the texts of operands (43_decode.md R199). -/
theorem decodeText_eq_some_iff_canonicalText {sz : Size} {x b : List Byte} (hx : ∀ c ∈ x, isTextChar c = true)
    (hl : x.length < sz.encoded) : decodeText sz x = some b ↔ b.length = sz.bytes ∧ x = canonicalText b := by
  rw [decodeText_eq_some hx hl, eq_canonicalText_iff hx]

/-- Settles O36: the operand's canonical text is the one that ENCODE computes. -/
theorem decodedTextIsUnique : Obligations.DecodedTextIsUnique := by
  intro sz x b hx hl
  rw [decodeText_eq_some_iff_canonicalText hx hl]
  refine and_congr_right fun hb => ?_
  rw [encodeText_eq hb]

end Sys2Proof.Machine
end

section
/-! SUPPORT. The three ways to complete, each with its result and its frame, and that every completion is one of them; what makes each of
them happen (42_encode.md R170 to R176, 43_decode.md R190 to R196); then O26, O22, O28, O31, O33, O34 and O35. -/

namespace Sys2Proof.Machine

theorem sameCommandAndHost_finishEncode (sz : Size) (text : List Byte) (s : State) :
    s.SameCommandAndHost (finishEncode sz text s) := by
  constructor <;> rfl

theorem sameCommandAndHost_finishDecode (out : List Byte) (s : State) : s.SameCommandAndHost (finishDecode out s) := by
  constructor <;> rfl

theorem sameCommandAndHost_failDecode (sz : Size) (s : State) : s.SameCommandAndHost (failDecode sz s) := by
  constructor <;> rfl

theorem sameMemoryBut_finishEncode {sz : Size} {text : List Byte} (s : State) (h : text.length < sz.encoded) :
    SameMemoryBut sz.encoded s (finishEncode sz text s) := by
  intro a ha
  rw [read_finishEncode sz text s a h, if_neg ha]

theorem sameMemoryBut_finishDecode (out : List Byte) (s : State) : SameMemoryBut out.length s (finishDecode out s) := by
  intro a ha
  rw [read_finishDecode, if_neg ha]

theorem sameMemoryBut_failDecode (sz : Size) (s : State) : SameMemoryBut sz.bytes s (failDecode sz s) := by
  intro a ha
  rw [read_failDecode, if_neg ha]

theorem outBufAt_finishEncode {sz : Size} {text : List Byte} (s : State) {k : Nat} (h : text.length < sz.encoded)
    (hk : k < sz.encoded) : outBufAt (finishEncode sz text s) k = (text ++ [0x00#8])[k]? := by
  rw [outBufAt, read_finishEncode sz text s _ h, if_pos (by omega), Nat.add_sub_cancel_left]

theorem outBufAt_finishDecode {out : List Byte} (s : State) {k : Nat} (hk : k < out.length) :
    outBufAt (finishDecode out s) k = out[k]? := by
  rw [outBufAt, read_finishDecode, if_pos (by omega), Nat.add_sub_cancel_left]

theorem outBufAt_failDecode {sz : Size} (s : State) {k : Nat} (hk : k < sz.bytes) : outBufAt (failDecode sz s) k = none := by
  rw [outBufAt, read_failDecode, if_pos (by omega)]

theorem length_of_decodeText {sz : Size} {m : List Host.Cell} {x out : List Byte} (hx : scanText m 0 sz.encoded = .text x)
    (h : decodeText sz x = some out) : out.length = sz.bytes := by
  obtain ⟨hl, -, hc, -⟩ := scanText_text.1 hx
  exact ((decodeText_eq_some hc hl).1 h).1

/-- Every completion is an encode's, a successful decode's or a failed decode's (60_exceptions.md R223). -/
theorem exec_next {i : Instr} {s t : State} (h : exec i s = .next t) :
    (isEncode i = true ∧ ∃ b : List Byte, b.length = (commandSize i).bytes ∧
      t = finishEncode (commandSize i) (canonicalText b) s) ∨
    (isEncode i = false ∧ ∃ out : List Byte, out.length = (commandSize i).bytes ∧ t = finishDecode out s) ∨
    (isEncode i = false ∧ t = failDecode (commandSize i) s) := by
  rw [exec_eq_run] at h
  cases hi : isEncode i with
  | true =>
    rw [if_pos hi] at h
    obtain ⟨b, hb, rfl⟩ := runEncode_next.1 h
    have hlen := (readBinary_ok.1 hb).1
    exact .inl ⟨rfl, b, hlen, by rw [encodeText_eq hlen]⟩
  | false =>
    rw [if_neg (by simp [hi])] at h
    rcases runDecode_next.1 h with ⟨x, out, hx, hd, rfl⟩ | ⟨-, rfl⟩
    · exact .inr (.inl ⟨rfl, out, length_of_decodeText hx hd, rfl⟩)
    · exact .inr (.inr ⟨rfl, rfl⟩)

/-- What every completion does: the engine is IDLE and DONE, and only the command's window of OUT_BUF and an encode's OUT_LEN may have
changed (20_memory.md R63). -/
theorem exec_frame {i : Instr} {s t : State} (h : exec i s = .next t) :
    t.phase = .idle ∧ (t.status = 0x02#8 ∨ (t.status = 0x06#8 ∧ isEncode i = false)) ∧
      (isEncode i = false → t.outLen = s.outLen) ∧ SameMemoryBut (writeWindow i) s t ∧ s.SameCommandAndHost t := by
  rcases exec_next h with ⟨hi, b, hb, rfl⟩ | ⟨hi, out, hout, rfl⟩ | ⟨hi, rfl⟩
  · refine ⟨rfl, .inl rfl, fun h0 => by simp [hi] at h0, ?_, sameCommandAndHost_finishEncode _ _ s⟩
    rw [writeWindow, if_pos hi]
    exact sameMemoryBut_finishEncode s (length_canonicalText_lt hb)
  · refine ⟨rfl, .inl rfl, fun _ => rfl, ?_, sameCommandAndHost_finishDecode out s⟩
    rw [writeWindow, if_neg (by simp [hi]), ← hout]
    exact sameMemoryBut_finishDecode out s
  · refine ⟨rfl, .inr ⟨rfl, hi⟩, fun _ => rfl, ?_, sameCommandAndHost_failDecode _ s⟩
    rw [writeWindow, if_neg (by simp [hi])]
    exact sameMemoryBut_failDecode _ s

/-- A command whose read set is written goes on: it could stop only at an unwritten byte of it (60_exceptions.md R231). -/
theorem exec_goes_on {i : Instr} {s : State} (h : ReadSetWritten i s) : ∃ t, exec i s = .next t := by
  cases hx : exec i s with
  | next t => exact ⟨t, rfl⟩
  | refused r => exact absurd hx (exec_not_refused i s r)
  | fault f =>
    exfalso
    cases hi : isEncode i with
    | true =>
      obtain ⟨k, hk, -, hw, -⟩ := (exec_encode_fault hi).1 hx
      rw [ReadSetWritten, if_pos hi] at h
      simp [h k hk] at hw
    | false =>
      obtain ⟨k, hk, -, hw, hscan⟩ := (exec_decode_fault hi).1 hx
      rw [ReadSetWritten, if_neg (by simp [hi])] at h
      simp [h k hk hscan] at hw

/-- Settles O26: a command with its read set written goes on, and every completion has the frame. -/
theorem everyCommandCompletes : Obligations.EveryCommandCompletes := by
  intro i s h
  obtain ⟨t, ht⟩ := exec_goes_on h
  exact ⟨t, ht, exec_frame ht⟩

@[simp] theorem flagsOf_reset : flagsOf 0x00#8 = (false, false, false, false) := rfl

@[simp] theorem flagsOf_issued : flagsOf 0x01#8 = (true, false, false, false) := rfl

@[simp] theorem flagsOf_illegalCommand : flagsOf 0x0A#8 = (false, true, false, true) := rfl

@[simp] theorem flagsOf_success : flagsOf 0x02#8 = (false, true, false, false) := rfl

@[simp] theorem flagsOf_failure : flagsOf 0x06#8 = (false, true, true, false) := rfl

/-- Settles O22: STATUS after each event, read flag by flag. -/
theorem flagsPerEvent : Obligations.FlagsPerEvent := by
  refine ⟨fun s => by simp, fun s i hs => ⟨_, hostWrite_encodeByte i hs, by simp⟩,
    fun s b hs hb => ⟨_, hostWrite_reservedByte hb hs, by simp⟩, fun s t i hi h => ?_, fun s t i hi h => ?_⟩
  · obtain ⟨-, hst | ⟨-, hi'⟩, -⟩ := exec_frame h
    · simp [hst]
    · simp [hi] at hi'
  · obtain ⟨-, hst | ⟨hst, -⟩, -⟩ := exec_frame h <;> simp [hst]

/-- An encode of an operand in IN_BUF stores the operand's text (42_encode.md R170, R174). -/
theorem exec_encode {i : Instr} {s : State} {b : List Byte} (hi : isEncode i = true) (hb : b.length = (commandSize i).bytes)
    (hin : InBufHolds s b) : exec i s = .next (finishEncode (commandSize i) (canonicalText b) s) := by
  have hread : readBinary s.mem 0 (commandSize i).bytes = .ok b :=
    readBinary_ok.2 ⟨hb, fun k hk => by rw [Nat.zero_add]; exact hin k (hb ▸ hk)⟩
  rw [exec_eq_run, if_pos hi]
  exact runEncode_next.2 ⟨b, hread, by rw [encodeText_eq hb]⟩

/-- Settles O28: the text, its terminator and nothing else is in the encode's window, and the rest is its frame. -/
theorem encodeWritesCanonicalText : Obligations.EncodeWritesCanonicalText := by
  intro i s b hi hb hin
  have hlt := length_canonicalText_lt hb
  refine ⟨_, exec_encode hi hb hin, fun k hk => ?_, fun k hk hkE => ?_, sameMemoryBut_finishEncode s hlt, rfl, rfl, rfl,
    sameCommandAndHost_finishEncode _ _ s⟩
  · rw [List.length_append, List.length_singleton] at hk
    exact outBufAt_finishEncode s hlt (by omega)
  · rw [outBufAt_finishEncode s hlt hkE, List.getElem?_eq_none]
    rw [List.length_append, List.length_singleton]
    omega

theorem alphabet_ofNat_mem {d : Nat} (h : d < 58) : alphabet (BitVec.ofNat 8 d) ∈ alphabetTable := by
  have hd : (BitVec.ofNat 8 d).toNat < alphabetTable.length := by
    rw [toNat_digit h]
    exact h
  rw [alphabet, List.getD_eq_getElem _ _ hd]
  exact List.getElem_mem hd

/-- The alphabet leaves out '0', 'O', 'I', 'l' and the terminator (40_components.md R100). -/
theorem not_excluded_of_mem_alphabetTable : ∀ c ∈ alphabetTable, c ∉ [0x30#8, 0x4F#8, 0x49#8, 0x6C#8, 0x00#8] := by decide

/-- The length that OUT_LEN holds fits its byte (10_state.md R30). -/
theorem toNat_textLength {sz : Size} {b : List Byte} (hb : b.length = sz.bytes) :
    (BitVec.ofNat 8 (canonicalText b).length).toNat = (canonicalText b).length := by
  have hle := length_canonicalText_le hb
  have hmax : sz.maxLen < 256 := by cases sz <;> decide
  rw [BitVec.toNat_ofNat, Nat.mod_eq_of_lt (by omega)]

/-- Settles O31: the bytes below OUT_LEN are the text's, and each of those is the character of a digit. -/
theorem encodeAlphabetClosure : Obligations.EncodeAlphabetClosure := by
  intro i s b hi hb hin
  obtain ⟨t, hexec, hout, -, -, hlen, -⟩ := encodeWritesCanonicalText i s b hi hb hin
  refine ⟨t, _, hexec, hlen, fun k hk => ?_⟩
  rw [toNat_textLength hb] at hk
  have hget : outBufAt t k = some (canonicalText b)[k] := by
    rw [hout k (by rw [List.length_append]; omega), List.getElem?_append_left hk, List.getElem?_eq_getElem hk]
  obtain ⟨d, hd, hc⟩ := mem_canonicalText (List.getElem_mem hk)
  have hmem : (canonicalText b)[k] ∈ alphabetTable := hc ▸ alphabet_ofNat_mem hd
  exact ⟨_, hmem, hget, not_excluded_of_mem_alphabetTable _ hmem⟩

/-- The effects of a failed decode (43_decode.md R196). -/
theorem failDecode_effect (sz : Size) (s : State) :
    (∀ k < sz.bytes, outBufAt (failDecode sz s) k = none) ∧ (failDecode sz s).status = 0x06#8 ∧ (failDecode sz s).phase = .idle ∧
      (failDecode sz s).outLen = s.outLen ∧ SameMemoryBut sz.bytes s (failDecode sz s) ∧ s.SameCommandAndHost (failDecode sz s) :=
  ⟨fun _ => outBufAt_failDecode s, rfl, rfl, rfl, sameMemoryBut_failDecode sz s, sameCommandAndHost_failDecode sz s⟩

/-- Settles O34: both are the scan's ways to fail, and a failed scan fails the decode. -/
theorem decodeRejectsInvalidAndTooLong : Obligations.DecodeRejectsInvalidAndTooLong := by
  intro i s hi hscan
  have hfail : scanText s.mem 0 (commandSize i).encoded = .fail := by
    rw [scanText_fail]
    simp only [Nat.zero_add]
    rcases hscan with ⟨k, hk, hpass, hc⟩ | hpass
    · exact .inl ⟨k, hk, hc, hpass⟩
    · exact .inr hpass
  refine ⟨_, ?_, failDecode_effect (commandSize i) s⟩
  rw [exec_eq_run, if_neg (by simp [hi])]
  exact runDecode_next.2 (.inr ⟨.inl hfail, rfl⟩)

/-- A terminated text in IN_BUF is what the scan finds (43_decode.md R190). -/
theorem scanText_of_inBufHolds {s : State} {x : List Byte} {fuel : Nat} (hx : ∀ c ∈ x, isTextChar c = true) (hl : x.length < fuel)
    (hin : InBufHolds s (x ++ [0x00#8])) : scanText s.mem 0 fuel = .text x := by
  simp only [InBufHolds, inBufAt, List.length_append, List.length_singleton] at hin
  refine scanText_text.2 ⟨hl, fun k hk => ?_, hx, ?_⟩
  · rw [Nat.zero_add, hin k (by omega), List.getElem?_append_left hk]
  · rw [Nat.zero_add, hin x.length (by omega), List.getElem?_append_right le_rfl, Nat.sub_self]
    rfl

/-- Settles O33: the scan finds the text, and the datapath accepts it exactly when it is an operand's. -/
theorem decodeAcceptsExactlyCanonicalTexts : Obligations.DecodeAcceptsExactlyCanonicalTexts := by
  intro i s x hi hx hl hin
  have hscan := scanText_of_inBufHolds hx hl hin
  rw [exec_eq_run, if_neg (by simp [hi])]
  constructor
  · intro b hb hxb
    have hdec := (decodeText_eq_some_iff_canonicalText hx hl).2 ⟨hb, hxb⟩
    exact ⟨_, runDecode_next.2 (.inl ⟨x, b, hscan, hdec, rfl⟩), fun k hk => outBufAt_finishDecode s hk, rfl, rfl, rfl,
      hb ▸ sameMemoryBut_finishDecode b s, sameCommandAndHost_finishDecode b s⟩
  · intro hnone
    have hdec : decodeText (commandSize i) x = none := by
      rw [Option.eq_none_iff_forall_ne_some]
      intro b hb
      obtain ⟨hlen, hxb⟩ := (decodeText_eq_some_iff_canonicalText hx hl).1 hb
      exact hnone b hlen hxb
    exact ⟨_, runDecode_next.2 (.inr ⟨.inr ⟨x, hscan, hdec⟩, rfl⟩), failDecode_effect (commandSize i) s⟩

/-- The encode and the decode of one size. -/
theorem commandSize_of_pair {e d : Instr} (h : (e, d) ∈ [(Instr.enc32, Instr.dec32), (Instr.enc64, Instr.dec64)]) :
    isEncode e = true ∧ isEncode d = false ∧ commandSize d = commandSize e := by
  simp only [List.mem_cons, Prod.mk.injEq, List.not_mem_nil, or_false] at h
  rcases h with ⟨rfl, rfl⟩ | ⟨rfl, rfl⟩
  · exact ⟨rfl, rfl, rfl⟩
  · exact ⟨rfl, rfl, rfl⟩

/-- Settles O35: what the encode left in OUT_BUF is the operand's text with its terminator, which the decode accepts. -/
theorem roundTripThroughTheMachine : Obligations.RoundTripThroughTheMachine := by
  intro e d hpair s b hb hin
  obtain ⟨he, hd, hsize⟩ := commandSize_of_pair hpair
  obtain ⟨t, hexec, hout, -, -, hlen, -⟩ := encodeWritesCanonicalText e s b he hb hin
  refine ⟨t, _, hexec, hlen, fun u hu => ?_⟩
  rw [toNat_textLength hb] at hu
  have hcopy : InBufHolds u (canonicalText b ++ [0x00#8]) := by
    intro k hk
    rw [← hout k hk]
    rw [List.length_append, List.length_singleton] at hk
    exact hu k (by omega)
  obtain ⟨haccept, -⟩ := decodeAcceptsExactlyCanonicalTexts d u (canonicalText b) hd (fun _ => isTextChar_of_mem_canonicalText)
    (hsize ▸ length_canonicalText_lt hb) hcopy
  obtain ⟨w, hw, hres, hst, -⟩ := haccept b (hsize ▸ hb) rfl
  exact ⟨w, hw, hres, hst⟩

end Sys2Proof.Machine
end

section
/-! SUPPORT. A command depends on its read set only (20_memory.md R62); then O37. -/

namespace Sys2Proof.Machine

theorem readInput_congr {m n : List Host.Cell} {i : Nat} (h : Memory.read n (inBase + i) = Memory.read m (inBase + i)) :
    readInput n i = readInput m i := by
  rw [readInput, readInput, h]

/-- The operand's reader depends on the operand's bytes only. -/
theorem readBinary_congr {m m' : List Host.Cell} {i n : Nat}
    (h : ∀ k < n, Memory.read m' (inBase + (i + k)) = Memory.read m (inBase + (i + k))) : readBinary m' i n = readBinary m i n := by
  induction n generalizing i with
  | zero => rfl
  | succ n ih =>
    have hrest : readBinary m' (i + 1) n = readBinary m (i + 1) n := by
      refine ih fun k hk => ?_
      rw [show i + 1 + k = i + (k + 1) by omega]
      exact h (k + 1) (by omega)
    rw [readBinary, readBinary, readInput_congr (by simpa using h 0 (by omega)), hrest]

/-- The scan depends on the bytes that it reaches only. -/
theorem scanText_congr {m m' : List Host.Cell} {cc fuel : Nat}
    (h : ∀ k < fuel, (∀ j < k, ∃ c, Memory.read m (inBase + (cc + j)) = some c ∧ isTextChar c = true) →
      Memory.read m' (inBase + (cc + k)) = Memory.read m (inBase + (cc + k))) :
    scanText m' cc fuel = scanText m cc fuel := by
  induction fuel generalizing cc with
  | zero => rfl
  | succ fuel ih =>
    have hhead : readInput m' cc = readInput m cc := readInput_congr (h 0 (by omega) fun j hj => absurd hj (Nat.not_lt_zero j))
    rw [scanText, scanText, hhead]
    cases hc : readInput m cc with
    | error f => rfl
    | ok c =>
      by_cases hchar : isTextChar c = true
      · have hrest : scanText m' (cc + 1) fuel = scanText m (cc + 1) fuel := by
          refine ih fun k hk hpass => ?_
          rw [show cc + 1 + k = cc + (k + 1) by omega]
          refine h (k + 1) (by omega) fun j hj => ?_
          cases j with
          | zero => exact ⟨c, readInput_ok.1 hc, hchar⟩
          | succ j =>
            rw [show cc + (j + 1) = cc + 1 + j by omega]
            exact hpass j (by omega)
        rw [hrest]
      · rw [isTextChar_iff, not_and_or, not_not, not_not] at hchar
        rcases hchar with h0 | h0
        · simp [h0]
        · simp [h0]

/-- Settles O37: the two runs read the same, so they stop alike or write the same into the command's window. -/
theorem resultDependsOnlyOnReadSet : Obligations.ResultDependsOnlyOnReadSet := by
  intro i s u hagree
  simp only [exec_eq_run, writeWindow]
  cases hi : isEncode i with
  | true =>
    rw [AgreeOnReadSet, if_pos hi] at hagree
    have hread : readBinary u.mem 0 (commandSize i).bytes = readBinary s.mem 0 (commandSize i).bytes :=
      readBinary_congr fun k hk => by rw [Nat.zero_add]; exact hagree k hk
    simp only [↓reduceIte]
    refine ⟨fun f hf => runEncode_fault.2 (hread.trans (runEncode_fault.1 hf)), fun t ht => ?_⟩
    obtain ⟨b, hb, rfl⟩ := runEncode_next.1 ht
    have hlt : (encodeText (commandSize i) b).length < (commandSize i).encoded := by
      rw [encodeText_eq (readBinary_ok.1 hb).1]
      exact length_canonicalText_lt (readBinary_ok.1 hb).1
    refine ⟨_, runEncode_next.2 ⟨b, hread.trans hb, rfl⟩, rfl, fun _ => rfl, fun k hk => ?_⟩
    rw [outBufAt_finishEncode u hlt hk, outBufAt_finishEncode s hlt hk]
  | false =>
    rw [AgreeOnReadSet, if_neg (by simp [hi])] at hagree
    have hscan : scanText u.mem 0 (commandSize i).encoded = scanText s.mem 0 (commandSize i).encoded := by
      refine scanText_congr fun k hk hpass => ?_
      simp only [Nat.zero_add] at hpass ⊢
      exact hagree k hk hpass
    simp only [Bool.false_eq_true, ↓reduceIte]
    refine ⟨fun f hf => runDecode_fault.2 (hscan.trans (runDecode_fault.1 hf)), fun t ht => ?_⟩
    rcases runDecode_next.1 ht with ⟨x, out, hx, hd, rfl⟩ | ⟨hfail, rfl⟩
    · refine ⟨_, runDecode_next.2 (.inl ⟨x, out, hscan.trans hx, hd, rfl⟩), rfl, fun h => h.elim, fun k hk => ?_⟩
      rw [← length_of_decodeText hx hd] at hk
      rw [outBufAt_finishDecode u hk, outBufAt_finishDecode s hk]
    · refine ⟨_, runDecode_next.2 (.inr ⟨by rwa [hscan], rfl⟩), rfl, fun h => h.elim, fun k hk => ?_⟩
      rw [outBufAt_failDecode u hk, outBufAt_failDecode s hk]

end Sys2Proof.Machine
end

section
/-! SUPPORT. Which event a step is, and what it then is: a reset, the latched command, a host turn (60_exceptions.md R223, R235, R244;
70_reset_and_hazards.md R250, R251); then O14, O15, O16 and O17. -/

namespace Sys2Proof.Machine

/-- Settles O14: after reset no byte is listed and OUT_LEN has no value, so only CMD and STATUS are to be relied on. -/
theorem resetStateIsAsListed : Obligations.ResetStateIsAsListed := by
  refine ⟨rfl, rfl, rfl, rfl, fun _ => rfl, fun _ => rfl, fun a hcmd hstatus => ?_⟩
  cases hp : placeOf a with
  | cmd => exact absurd hp hcmd
  | status => exact absurd hp hstatus
  | outLen | inBuf i | outBuf i | reserved =>
    simp [visible, hp, State.reset, RegValue.known, inBufAt, outBufAt, Memory.read]

theorem sameEngine_resetEvent (s : State) : State.reset.SameEngine (resetEvent s) := by constructor <;> rfl

theorem step_of_resetWaits {s : State} (h : s.inputs.head? = some .reset) : step s = .next (resetEvent s) := by
  simp [step, nextEvent, resetWaits, h]

/-- Settles O15: a reset goes before every other event, and leaves the engine as after reset. -/
theorem resetTakesPrecedence : Obligations.ResetTakesPrecedence :=
  fun s h => ⟨_, step_of_resetWaits h, sameEngine_resetEvent s⟩

/-- The completion that is due runs the latched command (60_exceptions.md R223). -/
theorem step_of_completionDue {s : State} (hr : s.inputs.head? ≠ some .reset) (hb : s.phase = .busy) (hc : s.countdown = 0) :
    step s = exec s.op s := by
  simp [step, nextEvent, resetWaits, completionDue, hr, hb, hc]

/-- With no reset waiting and no completion due, the step is the host's turn (60_exceptions.md R244). -/
theorem step_of_hostTurn {s : State} (hr : s.inputs.head? ≠ some .reset) (h : s.phase = .idle ∨ s.countdown ≠ 0) :
    step s = hostTurn s := by
  rcases h with h | h
  · simp [step, nextEvent, resetWaits, completionDue, hr, h]
  · simp [step, nextEvent, resetWaits, completionDue, hr, h]

theorem encodeByte_inj {i j : Instr} (h : encodeByte i = encodeByte j) : i = j :=
  Except.ok.inj ((decodeCommand_encodeByte i).symm.trans (decodeCommand_eq_ok.2 h))

/-- A command placed from outside is latched, due, and behind no reset (log 9). -/
theorem withFetchWord_encodeByte (s : State) (i : Instr) :
    s.withFetchWord 8 (encodeByte i).toNat =
      { issueCommand i (encodeByte i) s with countdown := 0, inputs := s.inputs.dropWhile (· == .reset) } := by
  rw [State.withFetchWord, show 8 / 8 = 1 from rfl, tableBytes_one_toNat]
  simp [placeCommand]

/-- What is left of the inputs behind the waiting resets does not begin with one. -/
theorem head?_dropWhile_reset (l : List Input) : (l.dropWhile (· == .reset)).head? ≠ some .reset := by
  intro h
  have hnot := List.head?_dropWhile_not (· == Input.reset) l
  rw [h] at hnot
  simp at hnot

/-- Settles O16: under the invariant the latched command is the one that CMD decodes to. -/
theorem stepRunsTheLatchedCommand : Obligations.StepRunsTheLatchedCommand := by
  refine ⟨fun s i hinv hb hc hr hd => ?_, fun s hr h => step_of_hostTurn hr h, fun s i => ?_⟩
  · obtain rfl : s.op = i := encodeByte_inj ((hinv.latched hb).symm.trans (decodeCommand_eq_ok.1 hd))
    exact step_of_completionDue hr hb hc
  · rw [withFetchWord_encodeByte]
    exact step_of_completionDue (head?_dropWhile_reset s.inputs) rfl rfl

/-- Settles O17: the host's turn takes the oldest input, after one step of the latency. -/
theorem queuedAccessIsTheNextHostStep : Obligations.QueuedAccessIsTheNextHostStep := by
  intro s x rest hin h
  rw [step_of_hostTurn (by simp [hin]) h, hostTurn, hin]
  rfl

end Sys2Proof.Machine
end

section
/-! SUPPORT. The invariant: it speaks of the engine only, a completion keeps it, and a host turn keeps it (10_state.md section 3,
60_exceptions.md R225); then O23 and O24. -/

namespace Sys2Proof.Machine

/-- Settles O23: after reset nothing is listed, and STATUS and CMD are 0x00. -/
theorem resetSatisfiesInvariant : Obligations.ResetSatisfiesInvariant where
  memory := Memory.wf_nil
  busy := by decide
  statusValue := by decide
  latched := by decide
  fresh := fun _ => ⟨rfl, rfl, fun _ => rfl⟩
  success := fun h => absurd h (by decide)
  failure := fun h => absurd h (by decide)
  illegal := fun h => absurd h (by decide)
  length := trivial

/-- The invariant is about the engine's state. -/
theorem State.Inv.of_sameEngine {s t : State} (hinv : s.Inv) (h : s.SameEngine t) : t.Inv := by
  obtain ⟨hphase, hop, hcmd, hstatus, hlen, hmem⟩ := h
  have hout : ∀ i, outBufAt t i = outBufAt s i := fun i => by rw [outBufAt, hmem, outBufAt]
  constructor
  · exact hmem ▸ hinv.memory
  · rw [hphase, hstatus]; exact hinv.busy
  · rw [hstatus]; exact hinv.statusValue
  · rw [hphase, hcmd, hop]; exact hinv.latched
  · simp only [hstatus, hcmd, hlen, hout]; exact hinv.fresh
  · rw [hstatus, hcmd]; exact hinv.success
  · rw [hstatus, hcmd]; exact hinv.failure
  · rw [hstatus, hcmd]; exact hinv.illegal
  · rw [hlen]; exact hinv.length

theorem inBuffers_out {k : Nat} (h : k < bufSize) : inBuffers (outBase + k) := .inr ⟨Nat.le_add_right _ _, Nat.add_lt_add_left h _⟩

theorem inBuffers_in {k : Nat} (h : k < bufSize) : inBuffers (inBase + k) := .inl ⟨Nat.le_add_right _ _, Nat.add_lt_add_left h _⟩

/-- Both windows of a size fit in OUT_BUF (00_scope.md R7, R8). -/
theorem size_le_bufSize (sz : Size) : sz.bytes ≤ bufSize ∧ sz.encoded ≤ bufSize := by cases sz <;> decide

/-- A completion keeps the canonical form of memory: it writes into OUT_BUF only. -/
theorem wf_exec {i : Instr} {s t : State} (hwf : Memory.wf s.mem) (h : exec i s = .next t) : Memory.wf t.mem := by
  obtain ⟨hbytes, henc⟩ := size_le_bufSize (commandSize i)
  rcases exec_next h with ⟨-, b, hb, rfl⟩ | ⟨-, out, hout, rfl⟩ | ⟨-, rfl⟩
  · rw [finishEncode_mem]
    refine Memory.wf_eraseRange _ _ (Memory.wf_writeBytes hwf fun k hk => inBuffers_out ?_)
    have hlt := length_canonicalText_lt hb
    rw [List.length_append, List.length_singleton] at hk
    omega
  · rw [finishDecode_mem]
    exact Memory.wf_writeBytes hwf fun k hk => inBuffers_out (by omega)
  · rw [failDecode_mem]
    exact Memory.wf_eraseRange _ _ hwf

/-- The length of a text is one that OUT_LEN may hold (10_state.md R30, 42_encode.md R177). -/
theorem legalLength_canonicalText {sz : Size} {b : List Byte} (hb : b.length = sz.bytes) :
    (RegValue.defined (BitVec.ofNat 8 (canonicalText b).length)).legalLength := by
  have hge := hb ▸ length_le_length_canonicalText b
  have hle := length_canonicalText_le hb
  rw [RegValue.legalLength, toNat_textLength hb]
  cases sz with
  | n32 => exact .inl ⟨hge, hle⟩
  | n64 => exact .inr ⟨hge, hle⟩

/-- A completion leaves OUT_LEN as it was, or an encode's length in it. -/
theorem legalLength_exec {i : Instr} {s t : State} (hl : s.outLen.legalLength) (h : exec i s = .next t) : t.outLen.legalLength := by
  rcases exec_next h with ⟨-, b, hb, rfl⟩ | ⟨-, out, -, rfl⟩ | ⟨-, rfl⟩
  · exact legalLength_canonicalText hb
  · exact hl
  · exact hl

theorem encodeByte_of_decode {i : Instr} (h : isEncode i = false) :
    encodeByte i = encodeByte .dec32 ∨ encodeByte i = encodeByte .dec64 := by
  cases i with
  | enc32 | enc64 => cases h
  | dec32 => exact .inl rfl
  | dec64 => exact .inr rfl

/-- The completion of the latched command keeps the invariant. -/
theorem State.Inv.exec {s t : State} (hinv : s.Inv) (hb : s.phase = .busy) (h : exec s.op s = .next t) : t.Inv := by
  obtain ⟨hphase, hstatus, -, -, hsame⟩ := exec_frame h
  have hcmd : t.cmd = encodeByte s.op := hsame.cmd.trans (hinv.latched hb)
  have hmem := wf_exec hinv.memory h
  have hlen := legalLength_exec hinv.length h
  rcases hstatus with hst | ⟨hst, hdec⟩
  · exact ⟨hmem, by simp [hst, hphase], by simp [hst], by simp [hphase], by simp [hst], fun _ => ⟨s.op, hcmd⟩, by simp [hst],
      by simp [hst], hlen⟩
  · exact ⟨hmem, by simp [hst, hphase], by simp [hst], by simp [hphase], by simp [hst], by simp [hst],
      fun _ => hcmd ▸ encodeByte_of_decode hdec, by simp [hst], hlen⟩

/-- Storing a byte of IN_BUF leaves OUT_BUF alone. -/
theorem read_outBuf_write_inBuf {m : List Host.Cell} {i : Nat} (hi : i < bufSize) (v : Byte) (k : Nat) :
    Memory.read (Memory.write m (inBase + i) v) (outBase + k) = Memory.read m (outBase + k) := by
  refine Memory.read_write_other m v ?_
  simp only [inBase, outBase, bufSize] at hi ⊢
  omega

/-- A host turn keeps the invariant. -/
theorem State.Inv.host {s t : State} (hinv : s.Inv) (h : HostEffect s t) : t.Inv := by
  cases h with
  | quiet hsame _ => exact hinv.of_sameEngine hsame
  | issued i v _ hd hphase hop hcmd hst hlen hmem _ =>
    have hv := decodeCommand_eq_ok.1 hd
    exact ⟨hmem ▸ hinv.memory, by simp [hst, hphase], by simp [hst], fun _ => by rw [hcmd, hop, hv], by simp [hst], by simp [hst],
      by simp [hst], by simp [hst], hlen ▸ hinv.length⟩
  | reported v e _ hd hphase hop hcmd hst hlen hmem =>
    have hv := decodeCommand_eq_error.1 ⟨e, hd⟩
    exact ⟨hmem ▸ hinv.memory, by simp [hst, hphase], by simp [hst], by simp [hphase], by simp [hst], by simp [hst], by simp [hst],
      fun _ => hcmd ▸ hv, hlen ▸ hinv.length⟩
  | stored i v hi hs hphase hop hcmd hst hlen hmem =>
    have hout : ∀ k, outBufAt t k = outBufAt s k := fun k => by rw [outBufAt, hmem, read_outBuf_write_inBuf hi, outBufAt]
    refine ⟨hmem ▸ Memory.wf_write v hinv.memory (inBuffers_in hi), ?_, ?_, by simp [hphase], ?_, ?_, ?_, ?_, hlen ▸ hinv.length⟩
    · rw [hst, hphase, ← hs]; exact hinv.busy
    · rw [hst]; exact hinv.statusValue
    · simp only [hst, hcmd, hlen, hout]; exact hinv.fresh
    · rw [hst, hcmd]; exact hinv.success
    · rw [hst, hcmd]; exact hinv.failure
    · rw [hst, hcmd]; exact hinv.illegal

/-- Settles O24: a reset leaves the reset state, and a completion and a host turn keep the invariant. -/
theorem stepKeepsInvariant : Obligations.StepKeepsInvariant := by
  intro s t hinv hstep
  rcases step_next hstep with ⟨-, rfl⟩ | ⟨-, hb, -, hexec⟩ | ⟨-, -, hhost⟩
  · exact State.Inv.of_sameEngine resetSatisfiesInvariant (sameEngine_resetEvent s)
  · exact hinv.exec hb hexec
  · exact hinv.host hhost

end Sys2Proof.Machine
end

section
/-! SUPPORT. Who writes what (10_state.md R36), and how a command runs to its completion (70_reset_and_hazards.md R262, R263); then O21,
O18 and O19. -/

namespace Sys2Proof.Machine

theorem HostEffect.outLen_eq {s t : State} (h : HostEffect s t) : t.outLen = s.outLen := by
  cases h with
  | quiet hsame _ => exact hsame.outLen
  | issued | reported | stored => assumption

theorem HostEffect.outBufAt_eq {s t : State} (h : HostEffect s t) (k : Nat) : outBufAt t k = outBufAt s k := by
  cases h with
  | quiet hsame _ => rw [outBufAt, hsame.mem, outBufAt]
  | issued i v _ _ _ _ _ _ _ hmem _ => rw [outBufAt, hmem, outBufAt]
  | reported v e _ _ _ _ _ _ _ hmem => rw [outBufAt, hmem, outBufAt]
  | stored i v hi _ _ _ _ _ _ hmem => rw [outBufAt, hmem, read_outBuf_write_inBuf hi, outBufAt]

/-- While BUSY a host turn changes no engine state and takes one step of the latency: everything else it can do needs IDLE. -/
theorem HostEffect.of_busy {s t : State} (h : HostEffect s t) (hb : s.phase = .busy) :
    s.SameEngine t ∧ t.countdown = s.countdown - 1 := by
  cases h with
  | quiet hsame hc => exact ⟨hsame, hc⟩
  | issued _ _ hs | reported _ _ hs | stored _ _ _ hs => simp [hb] at hs

/-- A completion writes no byte of IN_BUF: its window lies in OUT_BUF. -/
theorem inBufAt_exec {i : Instr} {s t : State} (h : exec i s = .next t) {k : Nat} (hk : k ≤ 88) : inBufAt t k = inBufAt s k := by
  obtain ⟨-, -, -, hmem, -⟩ := exec_frame h
  refine hmem _ fun hc => ?_
  simp only [inBase, outBase] at hc
  omega

/-- Settles O21: a completion changes only what its frame lets it, and a host turn changes neither output. -/
theorem eachRegisterHasItsOneWriter : Obligations.EachRegisterHasItsOneWriter := by
  intro s t hstep
  rcases step_next hstep with ⟨hev, -⟩ | ⟨hev, -, -, hexec⟩ | ⟨hev, -, hhost⟩
  · exact ⟨fun _ => .inl hev, fun _ => .inl hev, fun _ => .inl hev, fun _ => .inl hev⟩
  · obtain ⟨-, -, hlen, -, hsame⟩ := exec_frame hexec
    refine ⟨fun hne => .inr ⟨hev, ?_⟩, fun _ => .inr hev, fun ⟨k, hk, hne⟩ => absurd (inBufAt_exec hexec hk) hne,
      fun hne => absurd hsame.cmd hne⟩
    rw [← Bool.not_eq_false]
    exact fun hdec => hne (hlen hdec)
  · refine ⟨fun hne => absurd hhost.outLen_eq hne, fun ⟨k, hne⟩ => absurd (hhost.outBufAt_eq k) hne,
      fun ⟨k, _, hne⟩ => .inr ⟨hev, ?_⟩, fun _ => .inr hev⟩
    cases hs : s.phase with
    | idle => rfl
    | busy => exact absurd (by rw [inBufAt, (hhost.of_busy hs).1.mem, inBufAt]) hne

/-- A step of a BUSY engine with latency left that no reset comes before keeps the engine, with one step less to go. -/
theorem step_of_busy {s t : State} (hb : s.phase = .busy) (hc : s.countdown ≠ 0) (hr : s.inputs.head? ≠ some .reset)
    (h : step s = .next t) : s.SameEngine t ∧ t.countdown = s.countdown - 1 := by
  rw [step_of_hostTurn hr (.inr hc)] at h
  exact (hostTurn_effect h hr).of_busy hb

/-- Settles O18: the latency counts down with each host step, and at 0 the step is the completion. -/
theorem completionComesAfterFinitelyManySteps : Obligations.CompletionComesAfterFinitelyManySteps := by
  intro s hb
  induction hc : s.countdown generalizing s with
  | zero =>
    by_cases hr : s.inputs.head? = some .reset
    · exact ⟨0, le_rfl, .inr (.inl ⟨s, rfl, hr⟩)⟩
    · exact ⟨0, le_rfl, .inl ⟨s, rfl, rfl, hb, step_of_completionDue hr hb hc⟩⟩
  | succ c ih =>
    by_cases hr : s.inputs.head? = some .reset
    · exact ⟨0, Nat.zero_le _, .inr (.inl ⟨s, rfl, hr⟩)⟩
    · cases hstep : step s with
      | fault f => exact ⟨1, by omega, .inr (.inr fun t => by simp [runSteps, onNext, hstep])⟩
      | refused r => exact ⟨1, by omega, .inr (.inr fun t => by simp [runSteps, onNext, hstep])⟩
      | next u =>
        obtain ⟨hsame, hcu⟩ := step_of_busy hb (by omega) hr hstep
        obtain ⟨n, hn, hend⟩ := ih u (hsame.phase.trans hb) (by omega)
        refine ⟨n + 1, by omega, ?_⟩
        have hrun : runSteps (n + 1) s = runSteps n u := by rw [runSteps, hstep]; rfl
        rw [hrun, ← hsame.op]
        exact hend

theorem runEncode_sameEngine {sz : Size} {s u t : State} (h : s.SameEngine u) (hrun : runEncode sz s = .next t) :
    ∃ w, runEncode sz u = .next w ∧ t.SameEngine w := by
  obtain ⟨b, hb, rfl⟩ := runEncode_next.1 hrun
  refine ⟨_, runEncode_next.2 ⟨b, h.mem ▸ hb, rfl⟩, ⟨rfl, h.op, h.cmd, rfl, rfl, ?_⟩⟩
  rw [finishEncode_mem, finishEncode_mem, h.mem]

theorem runDecode_sameEngine {sz : Size} {s u t : State} (h : s.SameEngine u) (hrun : runDecode sz s = .next t) :
    ∃ w, runDecode sz u = .next w ∧ t.SameEngine w := by
  rcases runDecode_next.1 hrun with ⟨x, out, hx, hd, rfl⟩ | ⟨hfail, rfl⟩
  · refine ⟨_, runDecode_next.2 (.inl ⟨x, out, h.mem ▸ hx, hd, rfl⟩), ⟨rfl, h.op, h.cmd, rfl, h.outLen, ?_⟩⟩
    rw [finishDecode_mem, finishDecode_mem, h.mem]
  · refine ⟨_, runDecode_next.2 (.inr ⟨h.mem ▸ hfail, rfl⟩), ⟨rfl, h.op, h.cmd, rfl, h.outLen, ?_⟩⟩
    rw [failDecode_mem, failDecode_mem, h.mem]

/-- What a completion does to the engine depends on the engine's state only. -/
theorem exec_sameEngine {i : Instr} {s u t : State} (h : s.SameEngine u) (hexec : exec i s = .next t) :
    ∃ w, exec i u = .next w ∧ t.SameEngine w := by
  rw [exec_eq_run] at hexec
  simp only [exec_eq_run]
  split at hexec
  · rename_i hi
    simpa only [if_pos hi] using runEncode_sameEngine h hexec
  · rename_i hi
    simpa only [if_neg hi] using runDecode_sameEngine h hexec

theorem State.SameEngine.trans {s t u : State} (h : s.SameEngine t) (h' : t.SameEngine u) : s.SameEngine u :=
  ⟨h'.phase.trans h.phase, h'.op.trans h.op, h'.cmd.trans h.cmd, h'.status.trans h.status, h'.outLen.trans h.outLen,
    h'.mem.trans h.mem⟩

/-- A queued read of a BUSY engine with latency left: the engine stays, the read is off the queue and one step of latency is gone. -/
theorem step_queued_read {s : State} {a : Addr} {rest : List Input} (hin : s.inputs = .access (.read a 8) :: rest)
    (hc : s.countdown ≠ 0) : ∃ u, step s = .next u ∧ s.SameEngine u ∧ u.inputs = rest ∧ u.countdown = s.countdown - 1 := by
  obtain ⟨d, tr, hread⟩ := busRead_snd a { s with inputs := rest, countdown := s.countdown - 1 }
  refine ⟨{ s with inputs := rest, countdown := s.countdown - 1, draws := d, trace := tr }, ?_, ⟨rfl, rfl, rfl, rfl, rfl, rfl⟩,
    rfl, rfl⟩
  rw [queuedAccessIsTheNextHostStep s _ rest hin (.inr hc), hostAccess, if_pos rfl, hread]

/-- Settles O19: each poll keeps the engine, so the completion after the last one is that of the state at the start. -/
theorem pollingResultDoesNotDependOnLatency : Obligations.PollingResultDoesNotDependOnLatency := by
  intro s t hb hin hexec
  induction hc : s.countdown generalizing s t with
  | zero =>
    rw [hc, List.replicate_zero] at hin
    refine ⟨t, ?_, ⟨rfl, rfl, rfl, rfl, rfl, rfl⟩⟩
    rw [runSteps, step_of_completionDue (by simp [hin]) hb hc, hexec]
    rfl
  | succ c ih =>
    rw [hc, List.replicate_succ] at hin
    obtain ⟨u, hstep, hsame, hinu, hcu⟩ := step_queued_read hin (by omega)
    have hcu : u.countdown = c := by omega
    obtain ⟨w, hw, htw⟩ := exec_sameEngine hsame hexec
    obtain ⟨v, hv, hwv⟩ := ih u w (hsame.phase.trans hb) (by rw [hinu, hcu]) (by rw [hsame.op]; exact hw) hcu
    refine ⟨v, ?_, htw.trans hwv⟩
    rw [runSteps, hstep]
    exact hv

end Sys2Proof.Machine
end

section
/-! SUPPORT. The address map, what a host read returns at each place, and which accesses go on (20_memory.md R52;
60_exceptions.md R230, R244); then O4, O9, O11 and O13. -/

namespace Sys2Proof.Machine

theorem placeOf_inBuf_address {i : Nat} (hi : i ≤ 88) : placeOf (BitVec.ofNat 10 (0x100 + i)) = .inBuf i := by
  refine placeOf_eq_inBuf.2 ⟨Nat.lt_succ_of_le hi, ?_⟩
  rw [BitVec.toNat_ofNat, Nat.mod_eq_of_lt (by omega)]
  rfl

theorem placeOf_outBuf_address {i : Nat} (hi : i ≤ 88) : placeOf (BitVec.ofNat 10 (0x200 + i)) = .outBuf i := by
  refine placeOf_eq_outBuf.2 ⟨Nat.lt_succ_of_le hi, ?_⟩
  rw [BitVec.toNat_ofNat, Nat.mod_eq_of_lt (by omega)]
  rfl

/-- The reserved addresses are the ranges between the registers and the buffers and above them (20_memory.md R52). -/
theorem placeOf_eq_reserved (a : Addr) : placeOf a = .reserved ↔ (0x003 ≤ a.toNat ∧ a.toNat ≤ 0x0FF) ∨
    (0x159 ≤ a.toNat ∧ a.toNat ≤ 0x1FF) ∨ (0x259 ≤ a.toNat ∧ a.toNat ≤ 0x3FF) := by
  have ha := a.isLt
  have hi : inBase = 0x100 := rfl
  have ho : outBase = 0x200 := rfl
  have hs : bufSize = 89 := rfl
  unfold placeOf
  constructor
  · intro h
    dsimp only at h
    split_ifs at h
    omega
  · intro h
    rw [if_neg (by omega), if_neg (by omega), if_neg (by omega), if_neg (by omega), if_neg (by omega)]

/-- Settles O4: each address range of the map. -/
theorem addressMapPlaces : Obligations.AddressMapPlaces :=
  ⟨rfl, rfl, rfl, fun _ hi => ⟨placeOf_inBuf_address hi, placeOf_outBuf_address hi⟩, placeOf_eq_reserved⟩

/-- Settles O9: only the places CMD and IN_BUF have a write of their own. -/
theorem readOnlyWritesAreIgnored : Obligations.ReadOnlyWritesAreIgnored := by
  intro s a v hcmd hin
  cases hp : placeOf a with
  | cmd => exact absurd hp hcmd
  | inBuf i => exact absurd hp (hin i)
  | status | outLen | outBuf i | reserved => simp [hostWrite, hp]

theorem hostRead_sameEngine (a : Addr) (s : State) : s.SameEngine (hostRead a s).2 := by
  obtain ⟨d, hd⟩ := hostRead_snd a s
  rw [hd]
  constructor <;> rfl

/-- Settles O11: where a value is to be relied on the read returns it, and elsewhere it is a draw. -/
theorem hostReadReturns : Obligations.HostReadReturns := by
  intro s a
  refine ⟨hostRead_sameEngine a s, fun hp => hostRead_of_visible ?_, fun hp => hostRead_of_visible ?_,
    fun hp hs v hv => hostRead_of_visible ?_, fun i v hp hv => hostRead_of_visible ?_,
    fun i v hp hs hv => hostRead_of_visible ?_, fun h => hostRead_of_not_visible ?_⟩
  · simp [visible, hp]
  · simp [visible, hp]
  · simp [visible, hp, hs, hv, RegValue.known]
  · simp [visible, hp, hv]
  · simp [visible, hp, hs, hv]
  · rcases h with hp | ⟨hp, hs | hv⟩ | ⟨i, hp, hv⟩ | ⟨i, hp, hs | hv⟩
    · exact visible_of_reserved s hp
    · exact visible_output_of_busy hs (.inl hp)
    · cases hs : s.phase <;> simp [visible, hp, hs, hv, RegValue.known]
    · simp [visible, hp, hv]
    · exact visible_output_of_busy hs (.inr ⟨i, hp⟩)
    · cases hs : s.phase <;> simp [visible, hp, hs, hv]

/-- An IDLE engine takes every write (60_exceptions.md R244). -/
theorem hostWrite_of_idle {s : State} (a : Addr) (v : Byte) (hs : s.phase = .idle) : ∃ t, hostWrite a v s = .next t := by
  cases hp : placeOf a with
  | cmd => cases hd : decodeCommand v <;> simp [hostWrite, hp, writeCmd, hs, hd]
  | inBuf i => exact ⟨_, by rw [hostWrite, hp]; exact writeInBuf_of_idle i v hs⟩
  | status | outLen | outBuf i | reserved => simp [hostWrite, hp]

/-- A write goes on exactly where it is safe (60_exceptions.md R222, R232). -/
theorem hostWrite_goes_on_iff (a : Addr) (v : Byte) (s : State) :
    (∃ t, hostWrite a v s = .next t) ↔ (Access.write a 8 v).safe s = true := by
  cases hs : s.phase with
  | idle => simp [hostWrite_of_idle a v hs, Access.safe, hs]
  | busy =>
    cases hp : placeOf a with
    | cmd => simp [hostWrite, hp, writeCmd, hs, Access.safe]
    | inBuf i => simp [hostWrite, hp, writeInBuf, hs, Access.safe]
    | status | outLen | outBuf i | reserved => simp [hostWrite, hp, hs, Access.safe]

theorem busWrite_of_hostWrite {a : Addr} {v : Byte} {s t : State} (h : hostWrite a v s = .next t) :
    busWrite a v s = .next { t with trace := .wrote a v :: t.trace } := by
  simp [busWrite, onNext, h]

theorem busWrite_goes_on_iff (a : Addr) (v : Byte) (s : State) :
    (∃ t, busWrite a v s = .next t) ↔ ∃ t, hostWrite a v s = .next t := by
  constructor
  · rintro ⟨t, ht⟩
    obtain ⟨u, hu, -⟩ := busWrite_next ht
    exact ⟨u, hu⟩
  · rintro ⟨u, hu⟩
    exact ⟨_, busWrite_of_hostWrite hu⟩

/-- Settles O13: a wide access is refused, a read goes on, and a write goes on exactly where it is safe. -/
theorem safeAccessesAreTheOnesThatGoOn : Obligations.SafeAccessesAreTheOnesThatGoOn := by
  intro s x
  cases x with
  | read a width => by_cases hw : width = 8 <;> simp [Access.safe, hostAccess, hw]
  | write a width data =>
    by_cases hw : width = 8
    · subst hw
      rw [hostAccess, if_pos rfl, BitVec.setWidth_eq, busWrite_goes_on_iff, hostWrite_goes_on_iff]
    · simp [Access.safe, hostAccess, hw]

end Sys2Proof.Machine
end

section
/-! SUPPORT. A statement of the host's program as a step: SB of a constant byte, and one round of WAIT (30_encoding.md R89, R90); then O51
and O52. -/

namespace Sys2Proof.Machine

/-- With no input waiting and no completion due, the step runs the program's next statement (30_encoding.md R89). -/
theorem step_of_stmt {s : State} {st : HostStmt} (hin : s.inputs = []) (h : s.phase = .idle ∨ s.countdown ≠ 0) (hburst : s.burst = [])
    (hst : s.prog[s.hostPc]? = some st) :
    step s = runStmt st { s with countdown := s.countdown - 1, hostPc := s.hostPc + 1 } := by
  rw [step_of_hostTurn (by simp [hin]) h]
  simp [hostTurn, hin, runProgram, tick, hburst, hst]

theorem asAddr_natCast {n : Nat} (h : n < 1024) : asAddr n = some (BitVec.ofNat 10 n) := by
  simp [asAddr, h]

theorem asByte_toNat (v : Byte) : asByte v.toNat = some v := by
  have hv : (v.toNat : Int) < 256 := by exact_mod_cast v.isLt
  simp [asByte, hv]

/-- An engine that a host program drives alone: IDLE, with no input waiting and no read of a GETB pending. -/
structure ReadyForProgram (s : State) : Prop where
  phase : s.phase = .idle
  inputs : s.inputs = []
  burst : s.burst = []

/-- `SB 0x100+off, v` stores `v` in `IN_BUF[off]` and goes to the next statement (30_encoding.md R89). -/
theorem step_sb_inBuf {s : State} {off : Nat} {v : Byte} (hs : ReadyForProgram s) (hoff : off ≤ 88)
    (hst : s.prog[s.hostPc]? = some (.sb (.lit (0x100 + off)) (.lit v.toNat))) :
    ∃ t, step s = .next t ∧ ReadyForProgram t ∧ t.prog = s.prog ∧ t.hostPc = s.hostPc + 1 ∧
      t.mem = Memory.write s.mem (inBase + off) v := by
  have haddr : asAddr (0x100 + off) = some (BitVec.ofNat 10 (0x100 + off)) := by
    exact_mod_cast asAddr_natCast (n := 0x100 + off) (by omega)
  have hwrite := writeInBuf_of_idle (s := { s with countdown := s.countdown - 1, hostPc := s.hostPc + 1 }) off v hs.phase
  rw [← hostWrite_inBuf hoff] at hwrite
  refine ⟨{ s with
      countdown := s.countdown - 1, hostPc := s.hostPc + 1, mem := Memory.write s.mem (inBase + off) v,
      trace := .wrote (BitVec.ofNat 10 (0x100 + off)) v :: s.trace }, ?_, ⟨hs.phase, hs.inputs, hs.burst⟩, rfl, rfl, rfl⟩
  rw [step_of_stmt hs.inputs (.inl hs.phase) hs.burst hst]
  simp only [runStmt, evalExpr, haddr, asByte_toNat]
  exact busWrite_of_hostWrite hwrite

/-- The expansion of PUTB runs to its end, one byte a step. -/
theorem runSteps_putBytes {h : List Byte} {off : Nat} {s : State} (hs : ReadyForProgram s) (hfit : off + h.length ≤ 89)
    (hprog : s.prog.drop s.hostPc = putBytes off h) :
    ∃ t, runSteps h.length s = .next t ∧ t.phase = .idle ∧ t.mem = Memory.writeBytes s.mem (inBase + off) h := by
  induction h generalizing off s with
  | nil => exact ⟨s, rfl, hs.phase, rfl⟩
  | cons v vs ih =>
    rw [List.length_cons] at hfit
    have hst : s.prog[s.hostPc]? = some (.sb (.lit (0x100 + off)) (.lit v.toNat)) := by
      rw [← List.head?_drop, hprog]
      rfl
    obtain ⟨u, hstep, hu, hup, hupc, humem⟩ := step_sb_inBuf hs (by omega) hst
    have hrest : u.prog.drop u.hostPc = putBytes (off + 1) vs := by
      rw [hup, hupc, ← List.tail_drop, hprog]
      rfl
    obtain ⟨t, hrun, hphase, hmem⟩ := ih hu (by omega) hrest
    refine ⟨t, ?_, hphase, ?_⟩
    · rw [List.length_cons, runSteps, hstep]
      exact hrun
    · rw [hmem, humem]
      rfl

/-- Settles O51: the run leaves the bytes written one after the other. -/
theorem putbStoresTheBytes : Obligations.PutbStoresTheBytes := by
  intro s off h hfit hs hin
  obtain ⟨t, hrun, hphase, hmem⟩ := runSteps_putBytes (s := s.withProgram [.putb off h]) (off := off) (h := h)
    ⟨hs, hin, rfl⟩ hfit (List.append_nil _)
  have hmem' : t.mem = Memory.writeBytes s.mem (inBase + off) h := hmem
  refine ⟨t, hrun, hphase, fun k hk => ?_, fun a ha => ?_⟩
  · rw [inBufAt, hmem', Memory.read_writeBytes, if_pos (by omega), show inBase + (off + k) - (inBase + off) = k by omega]
  · rw [hmem', Memory.read_writeBytes]
    exact if_neg ha

theorem find?_setVar (x : HostVar) (z : Int) (l : List (HostVar × Int)) : (setVar x z l).find? (·.1 == x) = some (x, z) := by
  induction l with
  | nil => simp [setVar]
  | cons p l ih =>
    obtain ⟨y, w⟩ := p
    by_cases hy : y = x
    · simp [setVar, hy]
    · simp [setVar, hy, ih]

/-- A host variable has the value it was set to. -/
theorem hostVar_setHostVar (x : HostVar) (z : Int) (s : State) : hostVar x (setHostVar x z s) = z := by
  simp [hostVar, setHostVar, find?_setVar]

/-- Bit 0 of a STATUS value that the host read is BUSY (10_state.md R26). -/
theorem bitOf_status (b : Byte) : bitOf b.toNat 0 = statusBusy b := by
  have hbit : ((b.toNat : Int) % 2 = 1) ↔ b.toNat % 2 = 1 := by omega
  rw [statusBusy, ← BitVec.testBit_toNat, Nat.testBit_zero, bitOf, pow_zero, Int.ediv_one, Bool.eq_iff_iff, beq_iff_eq,
    decide_eq_true_iff]
  exact hbit

/-- A bus read of STATUS returns it and is written down in the trace (60_exceptions.md R244). -/
theorem busRead_status (s : State) : busRead 1#10 s = (s.status, { s with trace := .gave 1#10 s.status :: s.trace }) := by
  have hread : hostRead 1#10 s = (s.status, s) := hostRead_of_visible (by simp [visible])
  simp [busRead, hread]

/-- The engine before the statement `k` of WAIT, `k` steps of the latency having passed. -/
def atWait (k : Nat) (s : State) : State := { s.withProgram [.wait] with countdown := s.countdown - k, hostPc := k }

/-- The host has read STATUS into `r`. -/
def polled (s : State) : State := setHostVar .r s.status.toNat { s with trace := .gave 1#10 s.status :: s.trace }

/-- A step of WAIT is its next statement (30_encoding.md R90). -/
theorem step_atWait {s : State} {k : Nat} {st : HostStmt} (hin : s.inputs = []) (h : s.phase = .idle ∨ 3 ≤ s.countdown) (hk : k < 3)
    (hst : (expandProgram [.wait])[k]? = some st) : step (atWait k s) = runStmt st (atWait (k + 1) s) := by
  refine step_of_stmt (s := atWait k s) hin (h.imp id fun hc => ?_) rfl hst
  show s.countdown - k ≠ 0
  omega

theorem step_wait_label {s : State} (hin : s.inputs = []) (h : s.phase = .idle ∨ 3 ≤ s.countdown) :
    step (atWait 0 s) = .next (atWait 1 s) :=
  step_atWait (k := 0) hin h (by omega) rfl

theorem step_wait_read {s : State} (hin : s.inputs = []) (h : s.phase = .idle ∨ 3 ≤ s.countdown) :
    step (atWait 1 s) = .next (atWait 2 (polled s)) := by
  rw [step_atWait (k := 1) hin h (by omega) rfl]
  have haddr : asAddr 0x001 = some 1#10 := rfl
  simp only [runStmt, evalExpr, haddr, busRead_status]
  rfl

/-- The branch goes back to the start exactly while the bit that was read is 1. -/
theorem step_wait_branch {s : State} (hin : s.inputs = []) (h : s.phase = .idle ∨ 3 ≤ s.countdown) :
    step (atWait 2 s) = .next { atWait 3 s with hostPc := if bitOf (hostVar .r s) 0 then 0 else 3 } := by
  rw [step_atWait (k := 2) hin h (by omega) rfl]
  have hvar : hostVar .r (atWait 3 s) = hostVar .r s := rfl
  simp only [runStmt, hvar]
  cases bitOf (hostVar .r s) 0 <;> rfl

/-- Settles O52: the label, the read of STATUS, and the branch on the bit that was read. -/
theorem waitPollsStatusUntilNotBusy : Obligations.WaitPollsStatusUntilNotBusy := by
  intro s hin h
  have hr : hostVar .r (polled s) = s.status.toNat := hostVar_setHostVar _ _ _
  refine ⟨{ atWait 3 (polled s) with hostPc := if bitOf (hostVar .r (polled s)) 0 then 0 else 3 }, ?_, hr, ?_,
    ⟨rfl, rfl, rfl, rfl, rfl, rfl⟩⟩
  · show runSteps 3 (atWait 0 s) = _
    simp only [runSteps, step_wait_label hin h, onNext, step_wait_read hin h]
    rw [step_wait_branch (s := polled s) hin h]
  · rw [hr, bitOf_status]

end Sys2Proof.Machine
end
